-- ==== Sys2Proof/Word.lean ====
section
/-! DEFINITION. The widths of the CORE: bytes, 16-bit words, register indexes, key values (R7, R30). -/

namespace Sys2Proof

/-- An 8-bit unsigned value: a general register, a timer, a byte of memory (R30). -/
abbrev Byte := BitVec 8

/-- A 16-bit unsigned value: `I`, `PC`, a stack entry, an instruction word (R30, R100). -/
abbrev Word := BitVec 16

/-- The index of a general register, V0 to VF (R31). -/
abbrev Reg := Fin 16

/-- A key value 0 to 15 (R42). -/
abbrev Key := BitVec 4

end Sys2Proof
end

