-- ==== Sys2Proof/WellFormed.lean ====
section
/-! DEFINITION. The checks on terms that the types do not make already.
An instruction has none to make (R104: every value of every field is legal), so `Instr.wellFormed` holds of each;
a program image has its length (R237). -/

namespace Sys2Proof

/-- Every instruction term is well formed: each operand has exactly its field's width, all values of the fields are
legal (R104), and no mode or register takes part in decoding (R110). -/
def Instr.wellFormed (_ : Instr) : Bool := true

/-- A program image fits the program region 0x200 to 0xFFF: at most 3584 bytes (R237). -/
def imageWellFormed (image : List Byte) : Bool := decide (image.length ≤ 3584)

end Sys2Proof
end

