-- ==== Sys2Proof/Decode.lean ====
section
/-! DEFINITION. From bytes to instructions and back (R100 to R110): the decoder, total and strict, and the encoder. -/

namespace Sys2Proof

/-- Why bytes are no instruction. -/
inductive DecodeReject where
  /-- fewer than the two bytes of an instruction word (R100) -/
  | truncated
  /-- the word matches no row of the opcode map (R107) -/
  | illegal (w : Word)
  deriving DecidableEq, Repr

/-- The word of two bytes in memory order: the first is the more significant (R72). -/
def wordOfBytes (hi lo : Byte) : Word := hi ++ lo

/-- The primary opcode `w[15:12]` (R102). -/
def opField (w : Word) : Nat := (w.extractLsb' 12 4).toNat

/-- The field `x` = `w[11:8]` (R102). -/
def xField (w : Word) : Reg := (w.extractLsb' 8 4).toFin

/-- The field `y` = `w[7:4]` (R102). -/
def yField (w : Word) : Reg := (w.extractLsb' 4 4).toFin

/-- The field `n` = `w[3:0]` (R102). -/
def nField (w : Word) : BitVec 4 := w.extractLsb' 0 4

/-- The field `kk` = `w[7:0]` (R102). -/
def kkField (w : Word) : Byte := w.extractLsb' 0 8

/-- The field `nnn` = `w[11:0]` (R102). -/
def nnnField (w : Word) : BitVec 12 := w.extractLsb' 0 12

/-- The secondary decode of family 0, on the whole low 12 bits (R105, R108). -/
def decodeFamily0 (w : Word) : Option Instr :=
  match (nnnField w).toNat with
  | 0x0E0 => some .cls
  | 0x0EE => some .ret
  | _ => none

/-- The secondary decode of family 8, on `w[3:0]` (R105). -/
def decodeFamily8 (w : Word) : Option Instr :=
  match (nField w).toNat with
  | 0x0 => some (.ldReg (xField w) (yField w))
  | 0x1 => some (.orReg (xField w) (yField w))
  | 0x2 => some (.andReg (xField w) (yField w))
  | 0x3 => some (.xorReg (xField w) (yField w))
  | 0x4 => some (.addReg (xField w) (yField w))
  | 0x5 => some (.subReg (xField w) (yField w))
  | 0x6 => some (.shr (xField w) (yField w))
  | 0x7 => some (.subnReg (xField w) (yField w))
  | 0xE => some (.shl (xField w) (yField w))
  | _ => none

/-- The secondary decode of family E, on `w[7:0]` (R105). -/
def decodeFamilyE (w : Word) : Option Instr :=
  match (kkField w).toNat with
  | 0x9E => some (.skp (xField w))
  | 0xA1 => some (.sknp (xField w))
  | _ => none

/-- The secondary decode of family F, on `w[7:0]` (R105). -/
def decodeFamilyF (w : Word) : Option Instr :=
  match (kkField w).toNat with
  | 0x07 => some (.ldVxDt (xField w))
  | 0x0A => some (.ldVxK (xField w))
  | 0x15 => some (.ldDtVx (xField w))
  | 0x18 => some (.ldStVx (xField w))
  | 0x1E => some (.addIVx (xField w))
  | 0x29 => some (.ldFVx (xField w))
  | 0x33 => some (.ldBVx (xField w))
  | 0x55 => some (.ldMemVx (xField w))
  | 0x65 => some (.ldVxMem (xField w))
  | _ => none

/-- The decode of families 5 and 9, whose low nibble must be 0 (R105). -/
def decodeZeroNibble (w : Word) (i : Instr) : Option Instr :=
  match (nField w).toNat with
  | 0x0 => some i
  | _ => none

/-- The instruction a word selects, or none where it matches no row of the opcode map (R105, R106). -/
def selectInstr (w : Word) : Option Instr :=
  match opField w with
  | 0x0 => decodeFamily0 w
  | 0x1 => some (.jp (nnnField w))
  | 0x2 => some (.call (nnnField w))
  | 0x3 => some (.seImm (xField w) (kkField w))
  | 0x4 => some (.sneImm (xField w) (kkField w))
  | 0x5 => decodeZeroNibble w (.seReg (xField w) (yField w))
  | 0x6 => some (.ldImm (xField w) (kkField w))
  | 0x7 => some (.addImm (xField w) (kkField w))
  | 0x8 => decodeFamily8 w
  | 0x9 => decodeZeroNibble w (.sneReg (xField w) (yField w))
  | 0xA => some (.ldI (nnnField w))
  | 0xB => some (.jpV0 (nnnField w))
  | 0xC => some (.rnd (xField w) (kkField w))
  | 0xD => some (.drw (xField w) (yField w) (nField w))
  | 0xE => decodeFamilyE w
  | 0xF => decodeFamilyF w
  | _ => none

/-- The decode of one word (R105): an instruction, or the rejection that names the word (R107). -/
def decodeWord (w : Word) : Except DecodeReject Instr :=
  match selectInstr w with
  | some i => .ok i
  | none => .error (.illegal w)

/-- The decode of bytes in memory order: one instruction and the bytes after it (R100). -/
def decode : List Byte → Except DecodeReject (Instr × List Byte)
  | hi :: lo :: rest =>
    match decodeWord (wordOfBytes hi lo) with
    | .ok i => .ok (i, rest)
    | .error r => .error r
  | _ => .error .truncated

/-- One row of the opcode map: a word `w` selects it exactly when `w AND mask = match` (R101). -/
structure OpcodeRow where
  bits : Word
  mask : Word
  deriving DecidableEq, Repr

/-- Whether a word selects a row (R101). -/
def OpcodeRow.selects (row : OpcodeRow) (w : Word) : Bool := w &&& row.mask == row.bits

/-- The columns match and mask of the opcode map, row by row in its order (R106).
The decoder does not read it: that the two agree is a statement (R116). -/
def opcodeMap : List OpcodeRow :=
  [⟨0x00E0, 0xFFFF⟩, ⟨0x00EE, 0xFFFF⟩, ⟨0x1000, 0xF000⟩, ⟨0x2000, 0xF000⟩, ⟨0x3000, 0xF000⟩, ⟨0x4000, 0xF000⟩] ++
  [⟨0x5000, 0xF00F⟩, ⟨0x6000, 0xF000⟩, ⟨0x7000, 0xF000⟩, ⟨0x8000, 0xF00F⟩, ⟨0x8001, 0xF00F⟩, ⟨0x8002, 0xF00F⟩] ++
  [⟨0x8003, 0xF00F⟩, ⟨0x8004, 0xF00F⟩, ⟨0x8005, 0xF00F⟩, ⟨0x8006, 0xF00F⟩, ⟨0x8007, 0xF00F⟩, ⟨0x800E, 0xF00F⟩] ++
  [⟨0x9000, 0xF00F⟩, ⟨0xA000, 0xF000⟩, ⟨0xB000, 0xF000⟩, ⟨0xC000, 0xF000⟩, ⟨0xD000, 0xF000⟩, ⟨0xE09E, 0xF0FF⟩] ++
  [⟨0xE0A1, 0xF0FF⟩, ⟨0xF007, 0xF0FF⟩, ⟨0xF00A, 0xF0FF⟩, ⟨0xF015, 0xF0FF⟩, ⟨0xF018, 0xF0FF⟩, ⟨0xF01E, 0xF0FF⟩] ++
  [⟨0xF029, 0xF0FF⟩, ⟨0xF033, 0xF0FF⟩, ⟨0xF055, 0xF0FF⟩, ⟨0xF065, 0xF0FF⟩]

/-- The four bits of a register index, as an instruction word holds them (R102). -/
def regBits (x : Reg) : BitVec 4 := BitVec.ofFin x

/-- Format A: `op | nnn` (R103). -/
def formatA (op : BitVec 4) (nnn : BitVec 12) : Word := op ++ nnn

/-- Format XK: `op | x | kk` (R103). -/
def formatXK (op : BitVec 4) (x : Reg) (kk : Byte) : Word := op ++ (regBits x ++ kk)

/-- Formats XY and XYN: `op | x | y | n` (R103). -/
def formatXYN (op : BitVec 4) (x y : Reg) (n : BitVec 4) : Word := op ++ (regBits x ++ (regBits y ++ n))

/-- The word of an instruction (R103, R106). -/
def encode : Instr → Word
  | .cls => 0x00E0
  | .ret => 0x00EE
  | .jp nnn => formatA 0x1 nnn
  | .call nnn => formatA 0x2 nnn
  | .seImm x kk => formatXK 0x3 x kk
  | .sneImm x kk => formatXK 0x4 x kk
  | .seReg x y => formatXYN 0x5 x y 0x0
  | .ldImm x kk => formatXK 0x6 x kk
  | .addImm x kk => formatXK 0x7 x kk
  | .ldReg x y => formatXYN 0x8 x y 0x0
  | .orReg x y => formatXYN 0x8 x y 0x1
  | .andReg x y => formatXYN 0x8 x y 0x2
  | .xorReg x y => formatXYN 0x8 x y 0x3
  | .addReg x y => formatXYN 0x8 x y 0x4
  | .subReg x y => formatXYN 0x8 x y 0x5
  | .shr x y => formatXYN 0x8 x y 0x6
  | .subnReg x y => formatXYN 0x8 x y 0x7
  | .shl x y => formatXYN 0x8 x y 0xE
  | .sneReg x y => formatXYN 0x9 x y 0x0
  | .ldI nnn => formatA 0xA nnn
  | .jpV0 nnn => formatA 0xB nnn
  | .rnd x kk => formatXK 0xC x kk
  | .drw x y n => formatXYN 0xD x y n
  | .skp x => formatXK 0xE x 0x9E
  | .sknp x => formatXK 0xE x 0xA1
  | .ldVxDt x => formatXK 0xF x 0x07
  | .ldVxK x => formatXK 0xF x 0x0A
  | .ldDtVx x => formatXK 0xF x 0x15
  | .ldStVx x => formatXK 0xF x 0x18
  | .addIVx x => formatXK 0xF x 0x1E
  | .ldFVx x => formatXK 0xF x 0x29
  | .ldBVx x => formatXK 0xF x 0x33
  | .ldMemVx x => formatXK 0xF x 0x55
  | .ldVxMem x => formatXK 0xF x 0x65

/-- The two bytes of a word in memory order, most significant first (R72, R100). -/
def bytesOfWord (w : Word) : List Byte := [w.extractLsb' 8 8, w.extractLsb' 0 8]

/-- The bytes of an instruction in memory order. -/
def encodeBytes (i : Instr) : List Byte := bytesOfWord (encode i)

/-- The word whose low `nbits` bits are those of `w` and whose other bits are 0. -/
def tableWord (nbits w : Nat) : Word := BitVec.ofNat 16 (w % 2 ^ nbits)

/-- The instruction the decoder reads from the word that spec/opcode_table.json numbers as `w`: laid out big-endian
in memory order, then decoded. -/
def decodeTableWord (nbits w : Nat) : Option Instr :=
  match decode (bytesOfWord (tableWord nbits w)) with
  | .ok (i, _) => some i
  | .error _ => none

end Sys2Proof
end

