-- ==== Sys2Proof/Config.lean ====
section
/-! DEFINITION. What the implementation fixes (R7, R8) and what the spec leaves open, as free values (R180, R262). -/

namespace Sys2Proof

/-- `GLYPH_BASE` (R8, decision D4). -/
def Config.glyphBase : Nat := 0x000

/-- `GLYPH_STRIDE`, bytes per glyph (R8, decision D4). -/
def Config.glyphStride : Nat := 5

/-- The default of the parameter `GLYPH_ROM` (R79): the 80 bytes of the conventional font, the glyph of digit `d` at
`5 * d` (assumption 2). The parameter itself is a field of State. -/
def Config.defaultFont : List Byte :=
  [0xF0, 0x90, 0x90, 0x90, 0xF0] ++ [0x20, 0x60, 0x20, 0x20, 0x70] ++
  [0xF0, 0x10, 0xF0, 0x80, 0xF0] ++ [0xF0, 0x10, 0xF0, 0x10, 0xF0] ++
  [0x90, 0x90, 0xF0, 0x10, 0x10] ++ [0xF0, 0x80, 0xF0, 0x10, 0xF0] ++
  [0xF0, 0x80, 0xF0, 0x90, 0xF0] ++ [0xF0, 0x10, 0x20, 0x40, 0x40] ++
  [0xF0, 0x90, 0xF0, 0x90, 0xF0] ++ [0xF0, 0x90, 0xF0, 0x10, 0xF0] ++
  [0xF0, 0x90, 0xF0, 0x90, 0x90] ++ [0xE0, 0x90, 0xE0, 0x90, 0xE0] ++
  [0xF0, 0x80, 0x80, 0x80, 0xF0] ++ [0xE0, 0x90, 0x90, 0x90, 0xE0] ++
  [0xF0, 0x80, 0xF0, 0x80, 0xF0] ++ [0xF0, 0x80, 0xF0, 0x80, 0x80]

/-- `RAM_INIT`: the byte an address outside the glyph region holds after the `n`th Reset until something
writes it. A free value (R262, decision D19, assumption 1): fixed for one Reset, under no law. -/
opaque Config.ramInit : (resets : Nat) → (address : Nat) → Byte

/-- The random byte of the `k`th executed RND when the host has scheduled none.
A free value (R180, decision D17, assumption 3). -/
opaque Config.rnd : (draw : Nat) → Byte

end Sys2Proof
end

