-- ==== Sys2Proof/Machine/State.lean ====
section
/-! DEFINITION. The state of the CORE (R30), the model's own bookkeeping of its host, the reasons a step can stop,
and the state after Reset (R47). -/

namespace Sys2Proof.Machine

/-- The interpreter's state, `MODE` (R43). -/
inductive Mode where
  | running
  | blockedOnKey
  deriving DecidableEq, Repr

/-- The four fatal conditions (R222). -/
inductive Reason where
  | decodeError
  | stackOverflow
  | stackUnderflow
  | outOfRangeAccess
  deriving DecidableEq, Repr

/-- A recorded fatal condition: the record of `HALT` (R44). -/
structure HaltRecord where
  reason : Reason
  word   : Word
  addr   : Word
  ea     : BitVec 17
  deriving DecidableEq, Repr

/-- The five host events (R11, R236). `Step` carries its random byte. A Load comes whole, or byte by byte through the load
port (R241). -/
inductive Event where
  | reset
  | load (image : List Byte)
  /-- one write of the load port: a part of the one Load between a Reset and the first other event (R241) -/
  | loadPort (index : BitVec 12) (data : Byte)
  | step (rnd : Byte)
  | tick
  | setKey (k : Option Key)
  deriving DecidableEq, Repr

/-- Where the machine is in the boot protocol (R237, R263). The model's own: R237 admits a Load only after a
Reset and before any other event, and nothing in R30 records that. -/
inductive Boot where
  /-- a Reset has happened and no other event since -/
  | awaitingLoad
  /-- the load port has written a byte since the last Reset, and no other event has happened (R241) -/
  | loading
  /-- a Load or another event has happened since the last Reset -/
  | booted
  deriving DecidableEq, Repr

/-- Memory, as the list of the bytes written since the last Reset, addresses strictly rising (assumption 1). -/
abbrev Memory := List Host.Cell

/-- The display bit matrix: 32 rows of 64 columns, column `c` of a row being its bit `63 - c` (R41, R241). -/
abbrev Frame := Vector (BitVec 64) 32

/-- The state of the CORE: the thirteen elements of R30, then five fields of the model's own. -/
structure State where
  /-- general registers V0 to VF (R31) -/
  v       : Vector Byte 16
  /-- index register `I` (R33) -/
  i       : Word
  /-- program counter `PC` (R34) -/
  pc      : Word
  /-- call-stack depth `SP`, 0 to 16 (R37) -/
  sp      : Fin 17
  /-- `STACK[0]` to `STACK[15]` (R37) -/
  stack   : Vector Word 16
  /-- delay timer `DT` (R38) -/
  dt      : Byte
  /-- sound timer `ST` (R39) -/
  st      : Byte
  /-- `MEM` (R40), as the bytes written since the last Reset -/
  mem     : Memory
  /-- display bit matrix `FB` (R41) -/
  fb      : Frame
  /-- input state `KEY` (R42) -/
  key     : Option Key
  /-- interpreter state `MODE` (R43) -/
  mode    : Mode
  /-- destination register of a pending key-wait, `KREG` (R43) -/
  kreg    : Reg
  /-- fatal condition recorded, `HALT` (R44) -/
  halt    : Option HaltRecord
  /-- MODEL'S OWN: the parameter `GLYPH_ROM` (R8, R79), which no event writes (assumption 2) -/
  glyphRom : Vector Byte 80
  /-- MODEL'S OWN: how many RND instructions have executed; names the next free draw (assumption 3) -/
  draws   : Nat
  /-- MODEL'S OWN: how many Reset events have happened since construction; names `RAM_INIT` (assumption 1) -/
  resets  : Nat
  /-- MODEL'S OWN: the boot protocol (assumption 5) -/
  boot    : Boot
  /-- MODEL'S OWN: the host events still to come, next one first (assumption 4) -/
  pending : List Event
  deriving DecidableEq, Repr

/-- The reasons a step stops the machine with a fault: none. The spec's four fatal conditions are recorded in `HALT`
and the machine goes on to a next state, which Tick, SetKey and Reset still change (R226, R228). Nobody raises a fault,
so the type is empty, which is safe (assumption 6). -/
inductive Fault where
  deriving DecidableEq, Repr

/-- The reasons a step has no meaning. -/
inductive Refusal where
  /-- `exec` raises it for an instruction that has no meaning yet: none is left. Safe. -/
  | notModelled (mnemonic : String)
  /-- `loadEvent` raises it for a Load that is not the first event after a Reset, `loadPortEvent` for a write of the load
  port after another event (R237: "a model refuses it"). Safe. -/
  | loadOutsideBoot
  /-- `loadEvent` raises it for an image of more than 3584 bytes, `loadPortEvent` for a write above index 3583 (R237: "a
  model refuses it"). Safe. -/
  | imageTooLong
  deriving DecidableEq, Repr

/-- The state after Reset (R47), with the default font for the parameter `GLYPH_ROM` (R79, assumption 2). The entries of
`STACK` are unspecified there and 0 here (assumption 7). -/
def State.reset : State where
  v := Vector.replicate 16 0x00
  i := 0x0000
  pc := 0x0200
  sp := 0
  stack := Vector.replicate 16 0x0000
  dt := 0x00
  st := 0x00
  mem := []
  fb := Vector.replicate 32 0x0
  key := none
  mode := .running
  kreg := 0
  halt := none
  glyphRom := ⟨Config.defaultFont.toArray, rfl⟩
  draws := 0
  resets := 0
  boot := .awaitingLoad
  pending := []

end Sys2Proof.Machine
end

