-- ==== Sys2Proof/Machine/Ops.lean ====
section
/-! DEFINITION. The named operations over registers, stack, memory and `HALT`; every meaning is written over them. -/

namespace Sys2Proof.Machine

/-- The outcome of one step. -/
abbrev Result := Host.Outcome State Fault Refusal

/-! Registers (R31, R33, R34, R38, R39, R43) -/

/-- `V[x]`. -/
def State.reg (s : State) (x : Reg) : Byte := s.v[x]

/-- `V[x] <- b`. -/
def State.setReg (s : State) (x : Reg) (b : Byte) : State := { s with v := s.v.set x b }

/-- `PC <- a`. -/
def State.setPc (s : State) (a : Word) : State := { s with pc := a }

/-- `I <- a`. -/
def State.setI (s : State) (a : Word) : State := { s with i := a }

/-- `DT <- b`. -/
def State.setDt (s : State) (b : Byte) : State := { s with dt := b }

/-- `ST <- b`. -/
def State.setSt (s : State) (b : Byte) : State := { s with st := b }

/-- `FB <- f`. -/
def State.setFb (s : State) (f : Frame) : State := { s with fb := f }

/-- `MODE <- BlockedOnKey; KREG <- x` (R210). -/
def State.await (s : State) (x : Reg) : State := { s with mode := .blockedOnKey, kreg := x }

/-- One more RND has executed. -/
def State.drawn (s : State) : State := { s with draws := s.draws + 1 }

/-- `npc`, the address after the instruction at `PC`, modulo 65536 (R36). -/
def State.npc (s : State) : Word := s.pc + 2

/-- The address a taken skip continues at, modulo 65536 (R36). -/
def State.skipPc (s : State) : Word := s.pc + 4

/-- `PC <- npc`: the end of every instruction that is not a control transfer (R36). -/
def State.advance (s : State) : State := s.setPc s.npc

/-! The call stack (R37) -/

/-- `STACK[SP] <- a; SP <- SP + 1` where there is room, none where SP = 16 (R37). -/
def State.push (s : State) (a : Word) : Option State :=
  if h : s.sp.val < 16 then
    some { s with stack := s.stack.set s.sp.val a, sp := ⟨s.sp.val + 1, by omega⟩ }
  else
    none

/-- `SP <- SP - 1` with the entry then at `STACK[SP]`, none where SP = 0 (R37). The entry keeps its value. -/
def State.pop (s : State) : Option (Word × State) :=
  if h : 0 < s.sp.val then
    some (s.stack[s.sp.val - 1], { s with sp := ⟨s.sp.val - 1, by omega⟩ })
  else
    none

/-! Memory (R70 to R81) -/

/-- The byte listed for an address, if one is. -/
def Memory.lookup : Memory → Nat → Option Byte
  | [], _ => none
  | (a, b) :: m, k => if k = a then some b else Memory.lookup m k

/-- The memory with `v` listed at `k`, addresses still strictly rising. -/
def Memory.insert : Memory → Nat → Byte → Memory
  | [], k, v => [(k, v)]
  | (a, b) :: m, k, v =>
    if k < a then (k, v) :: (a, b) :: m
    else if k = a then (k, v) :: m
    else (a, b) :: Memory.insert m k v

/-- The listed addresses rise strictly from `low` and stay within memory. -/
def Memory.wfFrom : Nat → Memory → Bool
  | _, [] => true
  | low, (a, _) :: m => decide (low ≤ a) && decide (a ≤ 0xFFF) && Memory.wfFrom (a + 1) m

/-- The canonical form: addresses strictly rising, every one in 0x050 to 0xFFF. The glyph region is never listed, so
it reads as `GLYPH_ROM` for the life of the machine (R76). -/
def Memory.wf (m : Memory) : Bool := Memory.wfFrom 0x050 m

/-- What an unlisted address reads as: `GLYPH_ROM` in the glyph region, `RAM_INIT` elsewhere (R71, R79, R262). -/
def unlistedByte (glyphRom : Vector Byte 80) (resets a : Nat) : Byte :=
  if h : a < 80 then glyphRom[a] else Config.ramInit resets a

/-- `MEM[a]`. -/
def State.readByte (s : State) (a : Nat) : Byte :=
  match Memory.lookup s.mem a with
  | some b => b
  | none => unlistedByte s.glyphRom s.resets a

/-- `MEM[a] <- b`. -/
def State.writeByte (s : State) (a : Nat) (b : Byte) : State := { s with mem := Memory.insert s.mem a b }

/-- `MEM[a], MEM[a+1], … <- bytes`, in that order. -/
def State.writeBytes (s : State) : Nat → List Byte → State
  | _, [] => s
  | a, b :: bs => (s.writeByte a b).writeBytes (a + 1) bs

/-- A read of this address is out of range (R73, R75). -/
def badRead (a : Nat) : Bool := decide (0xFFF < a)

/-- A write of this address is out of range: above memory or in the glyph region (R74, R76). -/
def badWrite (a : Nat) : Bool := decide (0xFFF < a) || decide (a ≤ 0x04F)

/-- The addresses `base, base+1, …, base+n-1`, on unbounded integers (R75). -/
def span (base n : Nat) : List Nat := (List.range n).map (base + ·)

/-- `MemRead` of `n` bytes: the bytes, or the first bad address in ascending order (R73, R80). -/
def State.memRead (s : State) (base n : Nat) : Except Nat (List Byte) :=
  match (span base n).find? badRead with
  | some ea => .error ea
  | none => .ok ((span base n).map s.readByte)

/-- `MemWrite` of bytes: all written, or none and the first bad address in ascending order (R74, R80). -/
def State.memWrite (s : State) (base : Nat) (bytes : List Byte) : Except Nat State :=
  match (span base bytes.length).find? badWrite with
  | some ea => .error ea
  | none => .ok (s.writeBytes base bytes)

/-! Fatal conditions (R226) -/

/-- `raise reason(word, addr = pc, ea)`: `HALT` is written and nothing else changes (R226).
There is no return from it: only Reset clears `HALT` (R229). -/
def raiseFatal (reason : Reason) (word : Word) (ea : Nat) (s : State) : Result :=
  .next { s with halt := some ⟨reason, word, s.pc, BitVec.ofNat 17 ea⟩ }

/-- `raise OutOfRangeAccess` by an instruction, with the offending address (R222). -/
def raiseOutOfRange (word : Word) (ea : Nat) (s : State) : Result := raiseFatal .outOfRangeAccess word ea s

end Sys2Proof.Machine
end

