-- ==== Sys2Proof/Machine/Flags.lean ====
section
/-! DEFINITION. The values the six flag-writing instructions leave in VF (R32), and the order of their writes (R161). -/

namespace Sys2Proof.Machine

/-- VF, the flag register (R32). -/
def vf : Reg := 15

/-- A flag as VF holds it: 0x00 or 0x01 (R32). -/
def flagByte (f : Bool) : Byte := if f then 0x01 else 0x00

/-- The carry of `a + b`: the unsigned sum exceeds 255 (R156). -/
def carryOut (a b : Byte) : Bool := decide (255 < a.toNat + b.toNat)

/-- The not-borrow of `a - b`: `a >= b` (R157, R159). -/
def notBorrow (a b : Byte) : Bool := decide (b.toNat ≤ a.toNat)

/-- The bit a right shift by one shifts out (R158). -/
def shiftedOutRight (a : Byte) : Bool := a.getLsbD 0

/-- The bit a left shift by one shifts out (R160). -/
def shiftedOutLeft (a : Byte) : Bool := a.getLsbD 7

/-- `VF <- 1 if f else 0`. -/
def State.setFlag (s : State) (f : Bool) : State := s.setReg vf (flagByte f)

/-- `V[x] <- r`, then VF `<- f`: the flag is written last (R32, R161). -/
def State.setResultThenFlag (s : State) (x : Reg) (r : Byte) (f : Bool) : State := (s.setReg x r).setFlag f

end Sys2Proof.Machine
end

