-- ==== Sys2Proof/Machine/Operands.lean ====
section
/-! DEFINITION. The operand forms: immediates, implicit register blocks, keys, decimal digits, glyph addresses, the random
byte (R104, R138, R172, R180, R198 to R200). -/

namespace Sys2Proof.Machine

/-- `zext_16(nnn)` (R104). -/
def zextAddr (nnn : BitVec 12) : Word := nnn.setWidth 16

/-- `zext_16` of a byte (R140, R171). -/
def zextByte (b : Byte) : Word := b.setWidth 16

/-- `zext_8` of a key value (R138, R211). -/
def zextKey (k : Key) : Byte := k.setWidth 8

/-- The one pressed key has the value `b`, all 8 bits of which take part (R138). -/
def State.keyPressed (s : State) (b : Byte) : Bool :=
  match s.key with
  | none => false
  | some k => zextKey k == b

/-- The address a conditional skip continues at (R36). -/
def State.skipTarget (s : State) (taken : Bool) : Word := if taken then s.skipPc else s.npc

/-- The address of the glyph for the digit `b`, all 8 bits of which take part (R172). -/
def glyphAddress (b : Byte) : Word := BitVec.ofNat 16 (Config.glyphBase + b.toNat * Config.glyphStride)

/-- The hundreds, tens and units digit of a byte, each a whole byte (R198). -/
def bcdDigits (b : Byte) : List Byte :=
  [BitVec.ofNat 8 (b.toNat / 100), BitVec.ofNat 8 (b.toNat / 10 % 10), BitVec.ofNat 8 (b.toNat % 10)]

/-- `V[0], …, V[x]` (R199). -/
def State.regsThrough (s : State) (x : Reg) : List Byte := s.v.toList.take (x.val + 1)

/-- The register file with `bytes` written to the registers from index `k` on. -/
def loadRegs (v : Vector Byte 16) : Nat → List Byte → Vector Byte 16
  | _, [] => v
  | k, b :: bs => loadRegs (v.setIfInBounds k b) (k + 1) bs

/-- `V[0], V[1], … <- bytes`, in that order (R200). -/
def State.setRegs (s : State) (bytes : List Byte) : State := { s with v := loadRegs s.v 0 bytes }

/-- `rnd`, the random byte of this Step: the byte the host's scheduled `Step(rnd)` carries, and where none is
scheduled the free draw (R180, assumption 3). -/
def State.rndByte (s : State) : Byte :=
  match s.pending with
  | .step r :: _ => r
  | _ => Config.rnd s.draws

end Sys2Proof.Machine
end

