-- ==== Sys2Proof/Machine/Display.lean ====
section
/-! DEFINITION. Clear and sprite draw (spec/44_display.md, R185 to R188). -/

namespace Sys2Proof.Machine

/-- `FB[r][c]` (R41). -/
def pixel (f : Frame) (r : Fin 32) (c : Fin 64) : Bool := f[r].getMsbD c

/-- `FB[r][c] <- FB[r][c] XOR 1`. -/
def togglePixel (f : Frame) (r : Fin 32) (c : Fin 64) : Frame := f.set r (f[r] ^^^ BitVec.twoPow 64 (63 - c.val))

/-- A draw in progress: the display so far, and whether a pixel that was on has been turned off. -/
structure Drawing where
  frame     : Frame
  collision : Bool
  deriving DecidableEq, Repr

/-- One sprite bit at one pixel: a set bit toggles it, with a collision where it was on (R187). -/
def drawBit (bit : Bool) (r : Fin 32) (c : Fin 64) (d : Drawing) : Drawing :=
  if bit then ⟨togglePixel d.frame r c, d.collision || pixel d.frame r c⟩ else d

/-- One sprite byte on display row `r`, bit index 0 being the most significant bit, at column `x0 mod 64` (R187). -/
def drawByte (x0 : Nat) (byte : Byte) (r : Fin 32) (d : Drawing) : Drawing :=
  (List.range 8).foldl (fun d b => drawBit (byte.getLsbD (7 - b)) r (Fin.ofNat 64 (x0 + b)) d) d

/-- The sprite bytes on successive display rows from `y mod 32` on (R187). -/
def drawRows (x0 : Nat) : Nat → List Byte → Drawing → Drawing
  | _, [], d => d
  | y, byte :: bytes, d => drawRows x0 (y + 1) bytes (drawByte x0 byte (Fin.ofNat 32 y) d)

/-- `Draw(x0, y0, sprite)` on a display (R187). -/
def draw (x0 y0 : Nat) (sprite : List Byte) (f : Frame) : Drawing := drawRows x0 y0 sprite ⟨f, false⟩

/-- A display with every pixel off (R185). -/
def clearFrame : Frame := Vector.replicate 32 0x0

/-- CLS (R185). -/
def execCls (s : State) : Result := .next (s.setFb clearFrame).advance

/-- DRW Vx, Vy, n (R186). -/
def execDrw (x y : Reg) (n : BitVec 4) (s : State) : Result :=
  match s.memRead s.i.toNat n.toNat with
  | .error ea => raiseOutOfRange (encode (.drw x y n)) ea s
  | .ok sprite =>
    let d := draw (s.reg x).toNat (s.reg y).toNat sprite s.fb
    .next ((s.setFb d.frame).setFlag d.collision).advance

end Sys2Proof.Machine
end

