-- ==== Sys2Proof/Machine/Events.lean ====
section
/-! DEFINITION. The host events that run no instruction: Reset, Load, Tick, SetKey (R236 to R239, R260). -/

namespace Sys2Proof.Machine

/-- The origin of the program image, `PROG_BASE` (R7). -/
def progBase : Nat := 0x200

/-- The boot protocol is over: a Load is refused until the next Reset (R237). -/
def State.endBoot (s : State) : State := { s with boot := .booted }

/-- `Reset` (R260): every element of R30 takes its value of R47, whatever the mode and halted or not. `GLYPH_ROM` is the
machine's, so it stays. The host's schedule goes on, and `RAM_INIT` is another function (assumptions 1, 2, 7). -/
def resetEvent (s : State) : Result :=
  .next { State.reset with
    glyphRom := s.glyphRom
    draws := s.draws
    resets := s.resets + 1
    pending := s.pending }

/-- `Load(image)` (R237): the image at 0x200, not subject to the instructions' write checks. -/
def loadEvent (image : List Byte) (s : State) : Result :=
  match s.boot with
  | .awaitingLoad =>
    if imageWellFormed image then .next (s.writeBytes progBase image).endBoot else .refused .imageTooLong
  | .loading | .booted => .refused .loadOutsideBoot

/-- One write of the load port, `MEM[0x200 + ld_index] <- ld_data` with `ld_index` 0 to 3583, in any order and as often as
the host makes it; together the writes between a Reset and the first other event are the Load (R241). -/
def loadPortEvent (index : BitVec 12) (data : Byte) (s : State) : Result :=
  match s.boot with
  | .awaitingLoad | .loading =>
    if index.toNat ≤ 3583 then .next { s.writeByte (progBase + index.toNat) data with boot := .loading }
    else .refused .imageTooLong
  | .booted => .refused .loadOutsideBoot

/-- A timer counted down by one, floored at 0 (R239). -/
def countDown (b : Byte) : Byte := if b = 0 then 0 else b - 1

/-- `Tick` (R239). -/
def tickEvent (s : State) : Result := .next ((s.setDt (countDown s.dt)).setSt (countDown s.st)).endBoot

/-- What a key press does to a machine that waits for one (R211). -/
def State.wake (s : State) (k : Key) : State :=
  { (s.setReg s.kreg (zextKey k)).advance with mode := .running }

/-- `SetKey(k)` (R238). -/
def setKeyEvent (k : Option Key) (s : State) : Result :=
  let t := { s with key := k }.endBoot
  match k, s.mode, s.halt with
  | some k, .blockedOnKey, none => .next (t.wake k)
  | _, _, _ => .next t

end Sys2Proof.Machine
end

