-- ==== Sys2Proof/Machine/Ports.lean ====
section
/-! DEFINITION. The outputs (R46) and the port-level form of the events (R231, R241). -/

namespace Sys2Proof.Machine

/-- The output `sound` (R46). -/
def State.sound (s : State) : Bool := s.st != 0

/-- The output `display`: the whole of FB (R46). -/
def State.display (s : State) : Frame := s.fb

/-- The output `blocked` (R46). -/
def State.blocked (s : State) : Bool := s.mode == .blockedOnKey

/-- The output `halted` (R46). -/
def State.halted (s : State) : Bool := s.halt.isSome

/-- The code of a fatal condition on the halt port (R222). -/
def Reason.code : Reason → BitVec 2
  | .decodeError => 0
  | .stackOverflow => 1
  | .stackUnderflow => 2
  | .outOfRangeAccess => 3

/-- The ports `halt_reason`, `halt_word`, `halt_addr`, `halt_ea`, meaningful only while halted (R241). -/
def State.haltPort (s : State) : Option (BitVec 2 × Word × Word × BitVec 17) :=
  s.halt.map fun h => (h.reason.code, h.word, h.addr, h.ea)

/-- The display read port: `fb_row[63 - c] = FB[fb_row_sel][c]` (R241). -/
def State.fbRow (s : State) (sel : BitVec 5) : BitVec 64 := s.fb[sel.toNat]

/-- The input ports in one clock cycle (R241). -/
structure PortsIn where
  rst      : Bool
  ldValid  : Bool
  ldIndex  : BitVec 12
  ldData   : Byte
  step     : Bool
  rnd      : Byte
  keyValid : Bool
  keyDown  : Bool
  keyCode  : Key
  tick     : Bool
  deriving DecidableEq, Repr

/-- The events of one clock cycle, in their order: the load port's write (assumption 8), SetKey, Step, Tick; Reset
overrides the others (R231, R241). -/
def PortsIn.events (p : PortsIn) : List Event :=
  if p.rst then
    [.reset]
  else
    (if p.ldValid then [.loadPort p.ldIndex p.ldData] else []) ++
    (if p.keyValid then [.setKey (if p.keyDown then some p.keyCode else none)] else []) ++
    (if p.step then [.step p.rnd] else []) ++
    (if p.tick then [.tick] else [])

/-- One clock cycle's events joined to the schedule (assumption 4). -/
def State.clock (s : State) (p : PortsIn) : State := { s with pending := s.pending ++ p.events }

end Sys2Proof.Machine
end

