-- ==== Sys2Proof/Machine/Arith.lean ====
section
/-! DEFINITION. Arithmetic and logic on the V registers (spec/41_arith_logic.md, R150 to R162). Sources are read from the
state before any write (R161). -/

namespace Sys2Proof.Machine

/-- `V[x] <- r; PC <- npc`: an instruction with no flag side effect. -/
def writeResult (x : Reg) (r : Byte) (s : State) : Result := .next (s.setReg x r).advance

/-- `V[x] <- r; VF <- f; PC <- npc`: an instruction with one (R161). -/
def writeResultFlag (x : Reg) (r : Byte) (f : Bool) (s : State) : Result := .next (s.setResultThenFlag x r f).advance

/-- LD Vx, kk (R150). -/
def execLdImm (x : Reg) (kk : Byte) (s : State) : Result := writeResult x kk s

/-- ADD Vx, kk (R151). -/
def execAddImm (x : Reg) (kk : Byte) (s : State) : Result := writeResult x (s.reg x + kk) s

/-- LD Vx, Vy (R152). -/
def execLdReg (x y : Reg) (s : State) : Result := writeResult x (s.reg y) s

/-- OR Vx, Vy (R153). -/
def execOrReg (x y : Reg) (s : State) : Result := writeResult x (s.reg x ||| s.reg y) s

/-- AND Vx, Vy (R154). -/
def execAndReg (x y : Reg) (s : State) : Result := writeResult x (s.reg x &&& s.reg y) s

/-- XOR Vx, Vy (R155). -/
def execXorReg (x y : Reg) (s : State) : Result := writeResult x (s.reg x ^^^ s.reg y) s

/-- ADD Vx, Vy (R156). -/
def execAddReg (x y : Reg) (s : State) : Result :=
  writeResultFlag x (s.reg x + s.reg y) (carryOut (s.reg x) (s.reg y)) s

/-- SUB Vx, Vy (R157). -/
def execSubReg (x y : Reg) (s : State) : Result :=
  writeResultFlag x (s.reg x - s.reg y) (notBorrow (s.reg x) (s.reg y)) s

/-- SHR Vx (R158). -/
def execShr (x _y : Reg) (s : State) : Result :=
  writeResultFlag x (s.reg x >>> 1) (shiftedOutRight (s.reg x)) s

/-- SUBN Vx, Vy (R159). -/
def execSubnReg (x y : Reg) (s : State) : Result :=
  writeResultFlag x (s.reg y - s.reg x) (notBorrow (s.reg y) (s.reg x)) s

/-- SHL Vx (R160). -/
def execShl (x _y : Reg) (s : State) : Result :=
  writeResultFlag x (s.reg x <<< 1) (shiftedOutLeft (s.reg x)) s

end Sys2Proof.Machine
end

