-- ==== Sys2Proof/Machine/Flow.lean ====
section
/-! DEFINITION. The flow-control instructions (spec/40_flow.md, R130 to R141). -/

namespace Sys2Proof.Machine

/-- The shared form of the six conditional skips (R134 to R139). -/
def skipIf (taken : Bool) (s : State) : Result := .next (s.setPc (s.skipTarget taken))

/-- JP nnn (R131). -/
def execJp (nnn : BitVec 12) (s : State) : Result := .next (s.setPc (zextAddr nnn))

/-- CALL nnn (R132). -/
def execCall (nnn : BitVec 12) (s : State) : Result :=
  match s.push s.npc with
  | none => raiseFatal .stackOverflow (encode (.call nnn)) 0 s
  | some t => .next (t.setPc (zextAddr nnn))

/-- RET (R133). -/
def execRet (s : State) : Result :=
  match s.pop with
  | none => raiseFatal .stackUnderflow (encode .ret) 0 s
  | some (a, t) => .next (t.setPc a)

/-- SE Vx, kk (R134). -/
def execSeImm (x : Reg) (kk : Byte) (s : State) : Result := skipIf (s.reg x == kk) s

/-- SNE Vx, kk (R135). -/
def execSneImm (x : Reg) (kk : Byte) (s : State) : Result := skipIf (s.reg x != kk) s

/-- SE Vx, Vy (R136). -/
def execSeReg (x y : Reg) (s : State) : Result := skipIf (s.reg x == s.reg y) s

/-- SNE Vx, Vy (R137). -/
def execSneReg (x y : Reg) (s : State) : Result := skipIf (s.reg x != s.reg y) s

/-- SKP Vx (R138). -/
def execSkp (x : Reg) (s : State) : Result := skipIf (s.keyPressed (s.reg x)) s

/-- SKNP Vx (R139). -/
def execSknp (x : Reg) (s : State) : Result := skipIf (!s.keyPressed (s.reg x)) s

/-- JP V0, nnn (R140). -/
def execJpV0 (nnn : BitVec 12) (s : State) : Result := .next (s.setPc (zextAddr nnn + zextByte (s.reg 0)))

end Sys2Proof.Machine
end

