-- ==== Sys2Proof/Machine/Index.lean ====
section
/-! DEFINITION. The index-register instructions (spec/42_index.md, R170 to R172). -/

namespace Sys2Proof.Machine

/-- LD I, nnn (R170). -/
def execLdI (nnn : BitVec 12) (s : State) : Result := .next (s.setI (zextAddr nnn)).advance

/-- ADD I, Vx (R171). -/
def execAddIVx (x : Reg) (s : State) : Result := .next (s.setI (s.i + zextByte (s.reg x))).advance

/-- LD F, Vx (R172). -/
def execLdFVx (x : Reg) (s : State) : Result := .next (s.setI (glyphAddress (s.reg x))).advance

end Sys2Proof.Machine
end

