-- ==== Sys2Proof/Machine/KeyWait.lean ====
section
/-! DEFINITION. The key-wait instruction (spec/46_keywait.md, R210). -/

namespace Sys2Proof.Machine

/-- LD Vx, K: the machine blocks, and `PC` stays (R210). -/
def execLdVxK (x : Reg) (s : State) : Result := .next (s.await x)

end Sys2Proof.Machine
end

