-- ==== Sys2Proof/Machine/Random.lean ====
section
/-! DEFINITION. The random instruction (spec/43_random.md, R180). -/

namespace Sys2Proof.Machine

/-- RND Vx, kk (R180). -/
def execRnd (x : Reg) (kk : Byte) (s : State) : Result := .next (s.setReg x (s.rndByte &&& kk)).drawn.advance

end Sys2Proof.Machine
end

