-- ==== Sys2Proof/Machine/TimerBlock.lean ====
section
/-! DEFINITION. Timer transfer, BCD store, bulk register store and load (spec/45_timer_bcd_block.md, R195 to R200). -/

namespace Sys2Proof.Machine

/-- `MemWrite` of bytes from `I` on, then `PC <- npc`; nothing written where any address is bad (R80). -/
def storeAtI (word : Word) (bytes : List Byte) (s : State) : Result :=
  match s.memWrite s.i.toNat bytes with
  | .error ea => raiseOutOfRange word ea s
  | .ok t => .next t.advance

/-- LD Vx, DT (R195). -/
def execLdVxDt (x : Reg) (s : State) : Result := .next (s.setReg x s.dt).advance

/-- LD DT, Vx (R196). -/
def execLdDtVx (x : Reg) (s : State) : Result := .next (s.setDt (s.reg x)).advance

/-- LD ST, Vx (R197). -/
def execLdStVx (x : Reg) (s : State) : Result := .next (s.setSt (s.reg x)).advance

/-- LD B, Vx (R198). -/
def execLdBVx (x : Reg) (s : State) : Result := storeAtI (encode (.ldBVx x)) (bcdDigits (s.reg x)) s

/-- LD [I], Vx (R199). -/
def execLdMemVx (x : Reg) (s : State) : Result := storeAtI (encode (.ldMemVx x)) (s.regsThrough x) s

/-- LD Vx, [I] (R200). -/
def execLdVxMem (x : Reg) (s : State) : Result :=
  match s.memRead s.i.toNat (x.val + 1) with
  | .error ea => raiseOutOfRange (encode (.ldVxMem x)) ea s
  | .ok bytes => .next (s.setRegs bytes).advance

end Sys2Proof.Machine
end

