-- ==== Sys2Proof/Machine/Sequencer.lean ====
section
/-! DEFINITION. Fetch, decode, execute: the Step event (R221), and the delivery of the host's events (R236). -/

namespace Sys2Proof.Machine

/-- The fetch check: `PC` is even and in 0x0200 to 0x0FFE (R35). -/
def fetchable (pc : Word) : Bool :=
  decide (pc.toNat % 2 = 0) && decide (0x200 ≤ pc.toNat) && decide (pc.toNat ≤ 0xFFE)

/-- The bytes of the instruction at `PC`, in memory order (R72, R73). -/
def State.fetchBytes (s : State) : List Byte := [s.readByte s.pc.toNat, s.readByte (s.pc.toNat + 1)]

/-- The word at `PC`: `MEM[PC] || MEM[PC+1]` (R72). -/
def State.fetchWord (s : State) : Word := wordOfBytes (s.readByte s.pc.toNat) (s.readByte (s.pc.toNat + 1))

/-- Parts 3 to 6 of a Step: check `PC`, fetch, decode, execute (R221). -/
def runInstr (s : State) : Result :=
  if fetchable s.pc then
    match decode s.fetchBytes with
    | .ok (i, _) => exec i s
    | .error _ => raiseFatal .decodeError s.fetchWord 0 s
  else
    raiseFatal .outOfRangeAccess 0x0000 s.pc.toNat s

/-- The Step event: nothing on a halted or blocked machine, else at most one instruction (R221, R212, R228). -/
def stepEvent (s : State) : Result :=
  match s.halt, s.mode with
  | none, .running => runInstr s.endBoot
  | _, _ => .next s

/-- One host event (R236). -/
def hostEvent (e : Event) (s : State) : Result :=
  match e with
  | .reset => resetEvent s
  | .load image => loadEvent image s
  | .loadPort index data => loadPortEvent index data s
  | .step _ => stepEvent s
  | .tick => tickEvent s
  | .setKey k => setKeyEvent k s

/-- An event has been delivered: it leaves the schedule. -/
def delivered (rest : List Event) : Result → Result
  | .next t => .next { t with pending := rest }
  | .fault f => .fault f
  | .refused r => .refused r

/-- The next event: the first one the host has scheduled, a Step with a free random byte where it has scheduled none
(assumption 4). -/
def nextEvent (s : State) : Result :=
  match s.pending with
  | [] => stepEvent s
  | e :: rest => delivered rest (hostEvent e s)

/-- The state made ready to fetch at `PC`: booted, running, not halted, nothing scheduled, `PC` moved to 0x200 only where
no fetch can be made at it. -/
def State.readyToFetch (s : State) : State :=
  { s with
    pc := if fetchable s.pc then s.pc else 0x0200
    mode := .running
    halt := none
    boot := .booted
    pending := [] }

/-- The state with a word stored where the next Step fetches. -/
def State.placeWord (s : State) (w : Word) : State :=
  s.readyToFetch.writeBytes s.readyToFetch.pc.toNat (bytesOfWord w)

end Sys2Proof.Machine
end

