-- ==== Sys2Proof/Safety.lean ====
section
/-! DEFINITION. What counts as a safe state, and the terms in which claims are stated. -/

namespace Sys2Proof.Machine

/-- The word spelled by four nibbles, most significant first: the pattern notation of the opcode map (R101). -/
def nibbles (a b c d : Nat) : Word := BitVec.ofNat 16 (a * 4096 + b * 256 + c * 16 + d)

/-- The word spelled by a nibble and a 12-bit field (R101). -/
def nibbleAddr (a : Nat) (nnn : BitVec 12) : Word := BitVec.ofNat 16 (a * 4096 + nnn.toNat)

/-- The word spelled by two nibbles and an 8-bit field (R101). -/
def nibblesByte (a x : Nat) (kk : Byte) : Word := BitVec.ofNat 16 (a * 4096 + x * 256 + kk.toNat)

/-- The words that are instructions, as the decode algorithm lists them (R105). -/
def LegalWord (w : Word) : Prop :=
  w.toNat / 4096 ∈ [1, 2, 3, 4, 6, 7, 0xA, 0xB, 0xC, 0xD] ∨
  w = 0x00E0 ∨ w = 0x00EE ∨
  (w.toNat / 4096 = 5 ∧ w.toNat % 16 = 0) ∨
  (w.toNat / 4096 = 9 ∧ w.toNat % 16 = 0) ∨
  (w.toNat / 4096 = 8 ∧ w.toNat % 16 ∈ [0, 1, 2, 3, 4, 5, 6, 7, 0xE]) ∨
  (w.toNat / 4096 = 0xE ∧ w.toNat % 256 ∈ [0x9E, 0xA1]) ∨
  (w.toNat / 4096 = 0xF ∧ w.toNat % 256 ∈ [0x07, 0x0A, 0x15, 0x18, 0x1E, 0x29, 0x33, 0x55, 0x65])

/-- The load port's writes of a run of bytes, from index `k` on (R241). -/
def portWrites (k : Nat) : List Byte → List Event
  | [] => []
  | b :: bs => .loadPort (BitVec.ofNat 12 k) b :: portWrites (k + 1) bs

/-- How many words with this top nibble the decoder rejects. -/
def illegalCount (op : Nat) : Nat :=
  (List.range 4096).countP fun low => (selectInstr (BitVec.ofNat 16 (op * 4096 + low))).isNone

/-- The next event is a Step: none is scheduled, or the first scheduled one is a Step. -/
def State.StepIsNext (s : State) : Prop := s.pending = [] ∨ ∃ rnd es, s.pending = .step rnd :: es

/-- The instruction writes VF as a side effect (R32). -/
def WritesFlag : Instr → Prop
  | .addReg _ _ | .subReg _ _ | .shr _ _ | .subnReg _ _ | .shl _ _ | .drw _ _ _ => True
  | _ => False

/-- The instruction can raise a fatal condition (R222). -/
def MayHalt : Instr → Prop
  | .call _ | .ret | .drw _ _ _ | .ldVxMem _ | .ldBVx _ | .ldMemVx _ => True
  | _ => False

/-- The instruction is a conditional skip (R36). -/
def IsSkip : Instr → Prop
  | .seImm _ _ | .sneImm _ _ | .seReg _ _ | .sneReg _ _ | .skp _ | .sknp _ => True
  | _ => False

/-- The instruction sets PC to an absolute target (R36). -/
def IsJump : Instr → Prop
  | .jp _ | .call _ | .ret | .jpV0 _ => True
  | _ => False

/-- The instruction names V[z] as an ordinary destination, alone or in its block (R31). -/
def IsDestination (z : Reg) : Instr → Prop
  | .ldImm x _ | .addImm x _ | .ldReg x _ | .orReg x _ | .andReg x _ | .xorReg x _ | .addReg x _ | .subReg x _
  | .shr x _ | .subnReg x _ | .shl x _ | .rnd x _ | .ldVxDt x => x = z
  | .ldVxMem x => z ≤ x
  | _ => False

/-- A Step can run an instruction at once: nothing scheduled, not halted, not blocked. -/
def State.Ready (s : State) : Prop := s.pending = [] ∧ s.halt = none ∧ s.mode = .running

/-- No fatal condition has been recorded. -/
def State.Safe (s : State) : Prop := s.halt = none

/-- The accesses of an instruction's `n` bytes from `base` on are all admitted for reading (R73). -/
def ReadsInRange (base n : Nat) : Prop := n = 0 ∨ base + n ≤ 0x1000

/-- The accesses of an instruction's `n` bytes from `base` on are all admitted for writing (R74). -/
def WritesInRange (base n : Nat) : Prop := 0x50 ≤ base ∧ base + n ≤ 0x1000

/-- The first address above memory among `base, base+1, …` (R186, R200). -/
def firstBadRead (base : Nat) : Nat := max base 0x1000

/-- The first address among `base, base+1, …` that lies in the glyph region or above memory, where one does (R198). -/
def firstBadWrite (base : Nat) : Nat := if base < 0x50 then base else max base 0x1000

/-- The instruction at the recorded word was to access these addresses and could not (R222). -/
def OutOfRangeCause (i : Instr) (s : State) (ea : Nat) : Prop :=
  match i with
  | .drw _ _ n => ¬ ReadsInRange s.i.toNat n.toNat ∧ ea = firstBadRead s.i.toNat
  | .ldVxMem x => ¬ ReadsInRange s.i.toNat (x.val + 1) ∧ ea = firstBadRead s.i.toNat
  | .ldBVx _ => ¬ WritesInRange s.i.toNat 3 ∧ ea = firstBadWrite s.i.toNat
  | .ldMemVx x => ¬ WritesInRange s.i.toNat (x.val + 1) ∧ ea = firstBadWrite s.i.toNat
  | _ => False

/-- A recorded fatal condition says what is true of the halted machine: it stands at the failing instruction, the word is
the one there, and the cause it names holds (R222, R226). -/
def HaltRecord.Truthful (h : HaltRecord) (s : State) : Prop :=
  h.addr = s.pc ∧
  match h.reason with
  | .decodeError =>
    h.ea = 0 ∧ fetchable s.pc = true ∧ h.word = s.fetchWord ∧ decodeWord h.word = .error (.illegal h.word)
  | .stackOverflow => h.ea = 0 ∧ s.sp = 16 ∧ h.word = s.fetchWord ∧ ∃ nnn, decodeWord h.word = .ok (.call nnn)
  | .stackUnderflow => h.ea = 0 ∧ s.sp = 0 ∧ h.word = s.fetchWord ∧ decodeWord h.word = .ok .ret
  | .outOfRangeAccess =>
    (h.word = 0 ∧ fetchable s.pc = false ∧ h.ea.toNat = s.pc.toNat) ∨
    (fetchable s.pc = true ∧ h.word = s.fetchWord ∧
      ∃ i, decodeWord h.word = .ok i ∧ OutOfRangeCause i s h.ea.toNat)

/-- The invariant of the machine. -/
structure State.Inv (s : State) : Prop where
  /-- memory is in its canonical form, so the glyph region is never listed (R76) -/
  mem_wf : Memory.wf s.mem = true
  /-- a machine whose Load is not over is neither halted nor blocked (R237) -/
  boot_idle : s.boot ≠ .booted → s.halt = none ∧ s.mode = .running
  /-- a halted machine is Running (R228) -/
  halted_running : s.halt ≠ none → s.mode = .running
  /-- the record of a halted machine is true of it (R226) -/
  halted_truthful : ∀ h, s.halt = some h → h.Truthful s
  /-- a blocked machine stands at the key-wait that blocked it, whose register is `KREG` (R210) -/
  blocked_at_wait : s.mode = .blockedOnKey → fetchable s.pc = true ∧ decodeWord s.fetchWord = .ok (.ldVxK s.kreg)

/-- A sprite bit is set at a pixel: some byte `j` of the sprite and some bit index `b` of it land there (R187). -/
def SpriteLit (x0 y0 : Nat) (sprite : List Byte) (r : Fin 32) (c : Fin 64) : Prop :=
  ∃ j b : Nat, ∃ byte, sprite[j]? = some byte ∧ b < 8 ∧ (y0 + j) % 32 = r.val ∧ (x0 + b) % 64 = c.val ∧
    byte.getLsbD (7 - b) = true

end Sys2Proof.Machine
end

