-- ==== Sys2Proof/Certificates/Slice0/Obligations.lean ====
section
/-! DEFINITION. The statements for the provers, from the numbered rules of spec/. -/

open Sys2Proof Sys2Proof.Machine

/-! ## Encoding (spec/30_encoding.md) -/

/-- A few words, written out from the spec's patterns, decode to the instructions they stand for (R106, V-DEC-3). -/
def Obligations.FewWordsDecodeAsThePatternsSay : Prop :=
  decodeWord 0x00E0 = .ok .cls ∧ decodeWord 0x00EE = .ok .ret ∧ decodeWord 0x1ABC = .ok (.jp 0xABC) ∧
  decodeWord 0x3111 = .ok (.seImm 1 0x11) ∧ decodeWord 0x5120 = .ok (.seReg 1 2) ∧
  decodeWord 0x63AB = .ok (.ldImm 3 0xAB) ∧ decodeWord 0x8124 = .ok (.addReg 1 2) ∧
  decodeWord 0x812E = .ok (.shl 1 2) ∧ decodeWord 0xA123 = .ok (.ldI 0x123) ∧ decodeWord 0xC10F = .ok (.rnd 1 0x0F) ∧
  decodeWord 0xD012 = .ok (.drw 0 1 2) ∧ decodeWord 0xE19E = .ok (.skp 1) ∧ decodeWord 0xF30A = .ok (.ldVxK 3) ∧
  decodeWord 0xFF65 = .ok (.ldVxMem 15) ∧ decodeWord 0x0000 = .error (.illegal 0x0000) ∧
  decodeWord 0x01E0 = .error (.illegal 0x01E0) ∧ decodeWord 0x8128 = .error (.illegal 0x8128) ∧
  decodeTableWord 16 0xF165 = some (.ldVxMem 1)

/-- Decoding the bytes of an instruction gives it back, with whatever bytes follow. -/
def Obligations.DecodeUndoesEncode : Prop :=
  ∀ (i : Instr) (rest : List Byte), decode (encodeBytes i ++ rest) = .ok (i, rest)

/-- Every legal word is the encoding of the instruction it decodes to: no bit of a word is dropped. -/
def Obligations.EncodeUndoesDecode : Prop :=
  ∀ (w : Word) (i : Instr), decodeWord w = .ok i → encode i = w

/-- R105: the decode is total and strict: a word is an instruction exactly when the decode algorithm lists it, every other
word is rejected by name, and no two rows of the opcode map overlap. -/
def Obligations.DecodeIsTotalStrictAndUnambiguous : Prop :=
  ∀ w : Word,
    ((∃ i, decodeWord w = .ok i) ↔ LegalWord w) ∧
    (¬ LegalWord w → decodeWord w = .error (.illegal w)) ∧
    (LegalWord w → (opcodeMap.filter fun row => row.selects w).length = 1) ∧
    (¬ LegalWord w → (opcodeMap.filter fun row => row.selects w).length = 0)

/-- The illegal words, counted by family (the counts of R107, which the spec marks as derived), and what executing one does
(R107, R223). -/
def Obligations.IllegalWordsAreCountedAndHalt : Prop :=
  (List.range 16).map illegalCount = [4094, 0, 0, 0, 0, 3840, 0, 0, 1792, 3840, 0, 0, 0, 0, 4064, 3952] ∧
  ((List.range 16).map illegalCount).sum = 21582 ∧
  ∀ s : State, s.Ready → fetchable s.pc = true → ¬ LegalWord s.fetchWord →
    step s = .next { s with boot := .booted, halt := some ⟨.decodeError, s.fetchWord, s.pc, 0⟩ }

/-! ## The sequencer and the fatal conditions (spec/60_exceptions.md, spec/10_state.md) -/

/-- When the bytes at PC decode to an instruction, a step is the meaning of that instruction at that state, the boot
protocol being over; a Step the host has scheduled leaves the schedule as well. -/
def Obligations.StepRunsTheDecodedInstruction : Prop :=
  ∀ (s : State) (i : Instr) (rest : List Byte), s.halt = none → s.mode = .running → fetchable s.pc = true →
    decode s.fetchBytes = .ok (i, rest) →
    (s.pending = [] → step s = exec i { s with boot := .booted }) ∧
    (∀ rnd es, s.pending = .step rnd :: es → step s = delivered es (exec i { s with boot := .booted }))

/-- R221: the Step event in its order: halted, blocked, fetch check, big-endian fetch, decode, execute. A Step the host has
scheduled with a random byte does the same, whatever the byte is, unless the instruction is RND. -/
def Obligations.StepFollowsTheSequence : Prop :=
  (∀ s : State, s.pending = [] →
    (s.halt ≠ none → step s = .next s) ∧
    (s.halt = none → s.mode = .blockedOnKey → step s = .next s) ∧
    (s.halt = none → s.mode = .running →
      (s.pc.toNat % 2 = 1 ∨ s.pc.toNat < 0x200 ∨ 0xFFE < s.pc.toNat →
        step s = .next { s with boot := .booted, halt := some ⟨.outOfRangeAccess, 0x0000, s.pc, s.pc.setWidth 17⟩ }) ∧
      (s.pc.toNat % 2 = 0 → 0x200 ≤ s.pc.toNat → s.pc.toNat ≤ 0xFFE →
        ∃ w : Word, w.toNat = (s.readByte s.pc.toNat).toNat * 256 + (s.readByte (s.pc.toNat + 1)).toNat ∧
          (∀ i, decodeWord w = .ok i → step s = exec i { s with boot := .booted }) ∧
          (∀ r, decodeWord w = .error r →
            step s = .next { s with boot := .booted, halt := some ⟨.decodeError, w, s.pc, 0⟩ })))) ∧
  ∀ (s : State) (rnd : Byte) (es : List Event), s.pending = .step rnd :: es →
    (∀ x kk, decodeWord s.fetchWord ≠ .ok (.rnd x kk)) → step s = delivered es (step { s with pending := [] })

/-- R35: the fetch is admitted exactly at even addresses 0x200 to 0xFFE; a bad PC halts the Step and changes nothing
else; a transfer to a bad address completes, and the Step after it halts. -/
def Obligations.FetchCheckGuardsThePc : Prop :=
  (∀ pc : Word, fetchable pc = true ↔ pc.toNat % 2 = 0 ∧ 0x200 ≤ pc.toNat ∧ pc.toNat ≤ 0xFFE) ∧
  (∀ s : State, s.Ready → fetchable s.pc = false →
    step s = .next { s with boot := .booted, halt := some ⟨.outOfRangeAccess, 0x0000, s.pc, s.pc.setWidth 17⟩ }) ∧
  (∀ (s : State) (nnn : BitVec 12), s.Ready → fetchable (nnn.setWidth 16) = false →
    ∃ t, exec (.jp nnn) s = .next t ∧ t = { s with pc := nnn.setWidth 16 } ∧
      step t = .next
        { t with boot := .booted, halt := some ⟨.outOfRangeAccess, 0x0000, nnn.setWidth 16, nnn.setWidth 17⟩ })

/-- R226: a fatal condition recorded by a Step writes HALT, with the address of the failing instruction, and changes
nothing else: MODE stays Running, memory stays (`boot` and `pending` are the model's own). -/
def Obligations.FatalConditionsArePrecise : Prop :=
  ∀ s t : State, s.StepIsNext → step s = .next t → t.halt ≠ s.halt →
    ∃ reason word ea,
      t = { s with boot := .booted, halt := some ⟨reason, word, s.pc, ea⟩, pending := s.pending.tail } ∧
      t.mode = .running ∧ ∀ a, t.readByte a = s.readByte a

/-- R222: the codes of the four fatal conditions; and for a running machine, that a Step records one of them exactly when
its cause holds: the fetch check first, then the decode, then the instruction's own check, with the word, the address and
the first bad address that the table gives. -/
def Obligations.EachFatalConditionHasItsCause : Prop :=
  (Reason.decodeError.code = 0 ∧ Reason.stackOverflow.code = 1 ∧ Reason.stackUnderflow.code = 2 ∧
    Reason.outOfRangeAccess.code = 3) ∧
  ∀ (s t : State) (r : HaltRecord), s.halt = none → s.mode = .running → s.StepIsNext → step s = .next t →
    (t.halt = some r ↔
      (fetchable s.pc = false ∧ r = ⟨.outOfRangeAccess, 0x0000, s.pc, s.pc.setWidth 17⟩) ∨
      (fetchable s.pc = true ∧ decodeWord s.fetchWord = .error (.illegal s.fetchWord) ∧
        r = ⟨.decodeError, s.fetchWord, s.pc, 0⟩) ∨
      (fetchable s.pc = true ∧ ∃ i, decodeWord s.fetchWord = .ok i ∧
        ((∃ nnn, i = .call nnn ∧ s.sp = 16 ∧ r = ⟨.stackOverflow, s.fetchWord, s.pc, 0⟩) ∨
         (i = .ret ∧ s.sp = 0 ∧ r = ⟨.stackUnderflow, s.fetchWord, s.pc, 0⟩) ∨
         (∃ ea, OutOfRangeCause i s ea ∧ ea ≤ 65550 ∧
           r = ⟨.outOfRangeAccess, s.fetchWord, s.pc, BitVec.ofNat 17 ea⟩))))

/-- R228: a halted machine: Steps change nothing, Tick and SetKey keep their effect on DT, ST and KEY and reach nothing
else, the record stays as written until a Reset, and MODE is Running in every halted state that meets the invariant.
(`pending` and `boot` are the model's own.) -/
def Obligations.HaltedMachineOnlyCountsAndLatches : Prop :=
  ∀ (s : State) (r : HaltRecord), s.halt = some r →
    (s.pending = [] → step s = .next s) ∧
    (∀ rnd es, s.pending = .step rnd :: es → step s = .next { s with pending := es }) ∧
    (∀ es, s.pending = .tick :: es → ∃ t, step s = .next t ∧
      t = { s with dt := t.dt, st := t.st, boot := .booted, pending := es } ∧
      t.dt.toNat = s.dt.toNat - 1 ∧ t.st.toNat = s.st.toNat - 1) ∧
    (∀ k es, s.pending = .setKey k :: es → step s = .next { s with key := k, boot := .booted, pending := es }) ∧
    (∀ t, step s = .next t → (∀ es, s.pending ≠ .reset :: es) → t.halt = some r) ∧
    (s.Inv → s.mode = .running)

/-- R229: no event but Reset clears HALT, and Reset does. -/
def Obligations.OnlyResetClearsHalt : Prop :=
  ∀ (s t : State) (r : HaltRecord), s.halt = some r → step s = .next t →
    (t.halt = some r ∧ ∀ es, s.pending ≠ .reset :: es) ∨
    (t.halt = none ∧ ∃ es, s.pending = .reset :: es)

/-- R212: a Step with MODE = BlockedOnKey changes no state at all, whether the host scheduled it or not, and a Tick
still counts both timers down and leaves the machine blocked. -/
def Obligations.BlockedMachineOnlyWaits : Prop :=
  ∀ s : State, s.mode = .blockedOnKey →
    (s.pending = [] → step s = .next s) ∧
    (∀ rnd es, s.pending = .step rnd :: es → step s = .next { s with pending := es }) ∧
    (∀ es, s.pending = .tick :: es → ∃ t, step s = .next t ∧
      t = { s with dt := t.dt, st := t.st, boot := .booted, pending := es } ∧
      t.dt.toNat = s.dt.toNat - 1 ∧ t.st.toNat = s.st.toNat - 1)

/-- MODE goes from Running to BlockedOnKey only by a Step that executes a key-wait, which sets KREG to its register, and
back only by a key press or Reset. -/
def Obligations.ModeChangesOnlyByKeyWaitKeyPressAndReset : Prop :=
  ∀ s t : State, step s = .next t →
    (s.mode = .running → t.mode = .blockedOnKey →
      s.StepIsNext ∧ fetchable s.pc = true ∧ decodeWord s.fetchWord = .ok (.ldVxK t.kreg) ∧ t.pc = s.pc) ∧
    (s.mode = .blockedOnKey → t.mode = .running →
      (∃ k es, s.pending = .setKey (some k) :: es) ∨ ∃ es, s.pending = .reset :: es)

/-- Every step answers a next state, but for a Load outside its protocol, whole or through the load port, which is refused
(R221, R236, R237). That a fatal condition is a next state and no stop is the model's reading (assumption 6, DEDUCED), that
a Step, Tick or SetKey before any Load acts its choice (assumption 5, DESIGN CHOICE). -/
def Obligations.OnlyAMisplacedLoadIsRefused : Prop :=
  ∀ s : State,
    (∃ t, step s = .next t) ∨
    (∃ image es, s.pending = .load image :: es ∧ (s.boot ≠ .awaitingLoad ∨ 3584 < image.length) ∧
      ∃ r, step s = .refused r) ∨
    ∃ index data es, s.pending = .loadPort index data :: es ∧ (s.boot = .booted ∨ 3583 < index.toNat) ∧
      ∃ r, step s = .refused r

/-! ## Host events, ports and outputs -/

/-- R239: Tick counts both timers down by one, floored at 0, in every mode, halted or not, and changes nothing else
(`boot` and `pending` are the model's own). -/
def Obligations.TickCountsBothTimersDown : Prop :=
  ∀ (s : State) (es : List Event), s.pending = .tick :: es →
    ∃ t, step s = .next t ∧
      t = { s with dt := t.dt, st := t.st, boot := .booted, pending := es } ∧
      t.dt.toNat = (if 0 < s.dt.toNat then s.dt.toNat - 1 else 0) ∧
      t.st.toNat = (if 0 < s.st.toNat then s.st.toNat - 1 else 0) ∧
      ∀ a, t.readByte a = s.readByte a

/-- R238, R211: SetKey replaces KEY; a key press that finds the machine blocked also writes V[KREG], moves PC on by 2 and
makes it Running; nothing else changes (`boot` and `pending` are the model's own). -/
def Obligations.SetKeyLatchesAndEndsTheWait : Prop :=
  ∀ (s : State) (k : Option Key) (es : List Event), s.pending = .setKey k :: es →
    (∀ key, k = some key → s.mode = .blockedOnKey → s.halt = none →
      ∃ t, step s = .next t ∧
        t = { s with v := t.v, pc := s.pc + 2, key := k, mode := .running, boot := .booted, pending := es } ∧
        (t.reg s.kreg).toNat = key.toNat ∧
        (∀ z, z ≠ s.kreg → t.reg z = s.reg z) ∧
        ∀ a, t.readByte a = s.readByte a) ∧
    (k = none ∨ s.mode = .running ∨ s.halt ≠ none →
      step s = .next { s with key := k, boot := .booted, pending := es })

/-- R237: a Load of at most 3584 bytes after a Reset and before any other event writes its bytes from 0x200 on and
changes nothing else; any other Load is refused (`boot` and `pending` are the model's own). -/
def Obligations.LoadWritesTheImageOnce : Prop :=
  ∀ (s : State) (image : List Byte) (es : List Event), s.pending = .load image :: es →
    (s.boot = .awaitingLoad → image.length ≤ 3584 →
      ∃ t, step s = .next t ∧
        t = { s with mem := t.mem, boot := .booted, pending := es } ∧
        (∀ j, (h : j < image.length) → t.readByte (0x200 + j) = image[j]) ∧
        (∀ a, a < 0x200 ∨ 0x200 + image.length ≤ a → t.readByte a = s.readByte a)) ∧
    (s.boot = .awaitingLoad → 3584 < image.length → step s = .refused .imageTooLong) ∧
    (s.boot ≠ .awaitingLoad → step s = .refused .loadOutsideBoot)

/-- Reset, at any time, in any mode, halted or not, gives every element the spec names a reset value for that value
(R47, R260): the glyph region holds GLYPH_ROM, the machine's parameter, the rest of memory RAM_INIT of this Reset. That
the host's schedule, the count of draws and the awaiting of a Load go on as they do is the model's choice (assumptions 1,
3, 4, 5). -/
def Obligations.ResetEventRestoresEveryElement : Prop :=
  ∀ (s : State) (es : List Event), s.pending = .reset :: es →
    ∃ t, step s = .next t ∧
      (∀ z, t.reg z = 0) ∧ t.i = 0 ∧ t.pc = 0x0200 ∧ t.sp = 0 ∧ t.dt = 0 ∧ t.st = 0 ∧ t.key = none ∧
      t.mode = .running ∧ t.kreg = 0 ∧ t.halt = none ∧
      (∀ r c, pixel t.fb r c = false) ∧
      t.glyphRom = s.glyphRom ∧ (∀ a : Fin 80, t.readByte a = s.glyphRom[a]) ∧
      (∀ a, 0x50 ≤ a → a ≤ 0xFFF → t.readByte a = Config.ramInit t.resets a) ∧
      t.resets = s.resets + 1 ∧ t.draws = s.draws ∧ t.boot = .awaitingLoad ∧ t.pending = es

/-- R47: the state after Reset, element by element, whatever the parameter GLYPH_ROM is. STACK is left out: R47 leaves it
unspecified. -/
def Obligations.ResetStateHasTheSpecsValues : Prop :=
  (∀ z, State.reset.reg z = 0x00) ∧ State.reset.i = 0x0000 ∧ State.reset.pc = 0x0200 ∧ State.reset.sp = 0 ∧
  State.reset.dt = 0x00 ∧ State.reset.st = 0x00 ∧ State.reset.sound = false ∧ State.reset.key = none ∧
  State.reset.mode = .running ∧ State.reset.kreg = 0 ∧ State.reset.halt = none ∧
  (∀ r c, pixel State.reset.fb r c = false) ∧
  (∀ (rom : Vector Byte 80) (a : Fin 80), State.readByte { State.reset with glyphRom := rom } a = rom[a]) ∧
  (∀ a, 0x50 ≤ a → a ≤ 0xFFF → State.reset.readByte a = Config.ramInit State.reset.resets a)

/-- The ports. R231: the strobes of one cycle act in the order SetKey, Step, Tick; Reset overrides everything else in its
cycle. R241: a write of the load port between a Reset and the first other event writes its one byte, at any index up to
3583, in any order and as often as it comes. The model's choices: the ports are a translation to events, a load-port write
comes first in its cycle (assumption 8), and the events join the schedule behind what it holds (assumption 4). -/
def Obligations.StrobesOfACycleAreOrdered : Prop :=
  (∀ (s : State) (p : PortsIn),
    (s.clock p).pending = s.pending ++ p.events ∧
    (p.rst = true → p.events = [.reset]) ∧
    (p.rst = false → ∀ e f, [e, f].Sublist p.events →
      (∃ k, e = .setKey k ∧ f = .step p.rnd) ∨ (∃ k, e = .setKey k ∧ f = .tick) ∨ (e = .step p.rnd ∧ f = .tick) ∨
      (e = .loadPort p.ldIndex p.ldData ∧ ∀ index data, f ≠ .loadPort index data)) ∧
    (p.rst = false →
      (p.step = true ↔ .step p.rnd ∈ p.events) ∧ (p.tick = true ↔ .tick ∈ p.events) ∧
      (∀ k, (p.keyValid = true ∧ k = if p.keyDown then some p.keyCode else none) ↔ .setKey k ∈ p.events) ∧
      ∀ index data, (p.ldValid = true ∧ index = p.ldIndex ∧ data = p.ldData) ↔ .loadPort index data ∈ p.events)) ∧
  ∀ (s : State) (index : BitVec 12) (data : Byte) (es : List Event), s.pending = .loadPort index data :: es →
    (s.boot ≠ .booted → index.toNat ≤ 3583 →
      ∃ t, step s = .next t ∧ t = { s with mem := t.mem, boot := .loading, pending := es } ∧
        t.readByte (0x200 + index.toNat) = data ∧ ∀ a, a ≠ 0x200 + index.toNat → t.readByte a = s.readByte a) ∧
    (s.boot ≠ .booted → 3583 < index.toNat → step s = .refused .imageTooLong) ∧
    (s.boot = .booted → step s = .refused .loadOutsideBoot)

/-- R46: the four outputs, as functions of the state. -/
def Obligations.OutputsAreFunctionsOfTheState : Prop :=
  ∀ s : State,
    (s.sound = true ↔ 0 < s.st.toNat) ∧ s.display = s.fb ∧
    (s.halted = true ↔ s.halt ≠ none) ∧
    (∀ r, s.halt = some r → s.haltPort = some (r.reason.code, r.word, r.addr, r.ea)) ∧
    (s.blocked = true ↔ s.mode = .blockedOnKey) ∧
    (∀ (sel : BitVec 5) (c : Fin 64), (s.fbRow sel).getLsbD (63 - c.val) = pixel s.fb ⟨sel.toNat, sel.isLt⟩ c)

/-! ## Flow control (spec/40_flow.md) -/

/-- R131: JP nnn. A jump to itself leaves all state unchanged; one to a bad address completes, and the Step after it
halts. -/
def Obligations.JumpSetsThePc : Prop :=
  ∀ (nnn : BitVec 12) (s : State),
    decodeWord (nibbleAddr 0x1 nnn) = .ok (.jp nnn) ∧
    ∃ t, exec (.jp nnn) s = .next t ∧ t = { s with pc := t.pc } ∧ t.pc.toNat = nnn.toNat ∧
      (nnn.toNat = s.pc.toNat → t = s) ∧
      (s.Ready → nnn.toNat % 2 = 1 ∨ nnn.toNat < 0x200 →
        step t = .next { t with boot := .booted, halt := some ⟨.outOfRangeAccess, 0x0000, t.pc, t.pc.setWidth 17⟩ }) ∧
      ∀ a, t.readByte a = s.readByte a

/-- R132: CALL nnn pushes the address after it; at 16 entries it is StackOverflow, with nothing pushed. -/
def Obligations.CallPushesTheNextAddress : Prop :=
  ∀ (nnn : BitVec 12) (s : State),
    decodeWord (nibbleAddr 0x2 nnn) = .ok (.call nnn) ∧
    (s.sp.val < 16 → ∃ t, exec (.call nnn) s = .next t ∧
      t = { s with pc := t.pc, sp := t.sp, stack := t.stack } ∧
      t.pc.toNat = nnn.toNat ∧ t.sp.val = s.sp.val + 1 ∧
      t.stack[s.sp.val]? = some (s.pc + 2) ∧
      (∀ j, j ≠ s.sp.val → t.stack[j]? = s.stack[j]?) ∧
      (fetchable s.pc = true → (s.pc + 2).toNat ≤ 0x1000) ∧
      ∀ a, t.readByte a = s.readByte a) ∧
    (s.sp = 16 → exec (.call nnn) s =
      .next { s with halt := some ⟨.stackOverflow, nibbleAddr 0x2 nnn, s.pc, 0⟩ })

/-- R133: RET pops into PC, unchanged; with nothing on the stack it is StackUnderflow. -/
def Obligations.ReturnPopsIntoThePc : Prop :=
  decodeWord 0x00EE = .ok .ret ∧
  ∀ s : State,
    (0 < s.sp.val → ∃ t, exec .ret s = .next t ∧
      t = { s with pc := t.pc, sp := t.sp } ∧
      t.sp.val = s.sp.val - 1 ∧ s.stack[s.sp.val - 1]? = some t.pc ∧
      ∀ a, t.readByte a = s.readByte a) ∧
    (s.sp = 0 → exec .ret s = .next { s with halt := some ⟨.stackUnderflow, 0x00EE, s.pc, 0⟩ })

/-- A call and the return from it: PC at the address after the call, SP as before. -/
def Obligations.ReturnUndoesCall : Prop :=
  ∀ (nnn : BitVec 12) (s t u : State) (a : Word), s.sp.val < 16 →
    exec (.call nnn) s = .next t → exec .ret { t with pc := a } = .next u →
    u.pc = s.pc + 2 ∧ u.sp = s.sp ∧ u = { s with pc := u.pc, stack := u.stack }

/-- R134, R135: the skips that compare a register with an immediate. -/
def Obligations.ImmediateSkipsCompare : Prop :=
  ∀ (x : Reg) (kk : Byte) (s : State),
    decodeWord (nibblesByte 0x3 x kk) = .ok (.seImm x kk) ∧
    decodeWord (nibblesByte 0x4 x kk) = .ok (.sneImm x kk) ∧
    (∃ t, exec (.seImm x kk) s = .next t ∧ t = { s with pc := t.pc } ∧
      (s.reg x = kk → t.pc = s.pc + 4) ∧ (s.reg x ≠ kk → t.pc = s.pc + 2) ∧ ∀ a, t.readByte a = s.readByte a) ∧
    (∃ t, exec (.sneImm x kk) s = .next t ∧ t = { s with pc := t.pc } ∧
      (s.reg x ≠ kk → t.pc = s.pc + 4) ∧ (s.reg x = kk → t.pc = s.pc + 2) ∧ ∀ a, t.readByte a = s.readByte a)

/-- R136, R137: the skips that compare two registers; a low nibble other than 0 is illegal. -/
def Obligations.RegisterSkipsCompare : Prop :=
  ∀ (x y : Reg) (s : State),
    decodeWord (nibbles 0x5 x y 0) = .ok (.seReg x y) ∧
    decodeWord (nibbles 0x9 x y 0) = .ok (.sneReg x y) ∧
    (∀ n, 0 < n → n < 16 →
      decodeWord (nibbles 0x5 x y n) = .error (.illegal (nibbles 0x5 x y n)) ∧
      decodeWord (nibbles 0x9 x y n) = .error (.illegal (nibbles 0x9 x y n))) ∧
    (∃ t, exec (.seReg x y) s = .next t ∧ t = { s with pc := t.pc } ∧
      (s.reg x = s.reg y → t.pc = s.pc + 4) ∧ (s.reg x ≠ s.reg y → t.pc = s.pc + 2) ∧
      ∀ a, t.readByte a = s.readByte a) ∧
    (∃ t, exec (.sneReg x y) s = .next t ∧ t = { s with pc := t.pc } ∧
      (s.reg x ≠ s.reg y → t.pc = s.pc + 4) ∧ (s.reg x = s.reg y → t.pc = s.pc + 2) ∧
      ∀ a, t.readByte a = s.readByte a)

/-- R138, R139: the key skips: all 8 bits of Vx against the one pressed key; no key is never a match. -/
def Obligations.KeySkipsReadTheLatch : Prop :=
  ∀ (x : Reg) (s : State),
    decodeWord (nibblesByte 0xE x 0x9E) = .ok (.skp x) ∧
    decodeWord (nibblesByte 0xE x 0xA1) = .ok (.sknp x) ∧
    (∃ t, exec (.skp x) s = .next t ∧ t = { s with pc := t.pc } ∧
      ((∃ k, s.key = some k ∧ k.toNat = (s.reg x).toNat) → t.pc = s.pc + 4) ∧
      ((¬ ∃ k, s.key = some k ∧ k.toNat = (s.reg x).toNat) → t.pc = s.pc + 2) ∧
      ∀ a, t.readByte a = s.readByte a) ∧
    (∃ t, exec (.sknp x) s = .next t ∧ t = { s with pc := t.pc } ∧
      ((¬ ∃ k, s.key = some k ∧ k.toNat = (s.reg x).toNat) → t.pc = s.pc + 4) ∧
      ((∃ k, s.key = some k ∧ k.toNat = (s.reg x).toNat) → t.pc = s.pc + 2) ∧
      ∀ a, t.readByte a = s.readByte a)

/-- R140: JP V0, nnn: the sum with V0, not reduced to 12 bits; after a bad sum the next Step halts. -/
def Obligations.JumpWithOffsetAddsV0 : Prop :=
  ∀ (nnn : BitVec 12) (s : State),
    decodeWord (nibbleAddr 0xB nnn) = .ok (.jpV0 nnn) ∧
    ∃ t, exec (.jpV0 nnn) s = .next t ∧ t = { s with pc := t.pc } ∧
      t.pc.toNat = nnn.toNat + (s.reg 0).toNat ∧
      (s.Ready → t.pc.toNat % 2 = 1 ∨ t.pc.toNat < 0x200 ∨ 0xFFE < t.pc.toNat →
        step t = .next { t with boot := .booted, halt := some ⟨.outOfRangeAccess, 0x0000, t.pc, t.pc.setWidth 17⟩ }) ∧
      ∀ a, t.readByte a = s.readByte a

/-! ## Arithmetic and logic (spec/41_arith_logic.md) -/

/-- R150, R151: load and add immediate; neither writes VF unless it is the destination. -/
def Obligations.ImmediateLoadAndAdd : Prop :=
  ∀ (x : Reg) (kk : Byte) (s : State),
    decodeWord (nibblesByte 0x6 x kk) = .ok (.ldImm x kk) ∧
    decodeWord (nibblesByte 0x7 x kk) = .ok (.addImm x kk) ∧
    (∃ t, exec (.ldImm x kk) s = .next t ∧ t = { s with v := t.v, pc := s.pc + 2 } ∧
      t.reg x = kk ∧ (∀ z, z ≠ x → t.reg z = s.reg z) ∧ ∀ a, t.readByte a = s.readByte a) ∧
    (∃ t, exec (.addImm x kk) s = .next t ∧ t = { s with v := t.v, pc := s.pc + 2 } ∧
      (t.reg x).toNat = ((s.reg x).toNat + kk.toNat) % 256 ∧
      (∀ z, z ≠ x → t.reg z = s.reg z) ∧ ∀ a, t.readByte a = s.readByte a)

/-- R152 to R155: copy, OR, AND, XOR, bit by bit; VF is not written as a side effect. -/
def Obligations.CopyAndLogicAreBitwise : Prop :=
  ∀ (x y : Reg) (s : State),
    decodeWord (nibbles 0x8 x y 0) = .ok (.ldReg x y) ∧ decodeWord (nibbles 0x8 x y 1) = .ok (.orReg x y) ∧
    decodeWord (nibbles 0x8 x y 2) = .ok (.andReg x y) ∧ decodeWord (nibbles 0x8 x y 3) = .ok (.xorReg x y) ∧
    (∃ t, exec (.ldReg x y) s = .next t ∧ t = { s with v := t.v, pc := s.pc + 2 } ∧
      t.reg x = s.reg y ∧ (∀ z, z ≠ x → t.reg z = s.reg z) ∧ ∀ a, t.readByte a = s.readByte a) ∧
    (∃ t, exec (.orReg x y) s = .next t ∧ t = { s with v := t.v, pc := s.pc + 2 } ∧
      (∀ b, (t.reg x).getLsbD b = ((s.reg x).getLsbD b || (s.reg y).getLsbD b)) ∧
      (∀ z, z ≠ x → t.reg z = s.reg z) ∧ ∀ a, t.readByte a = s.readByte a) ∧
    (∃ t, exec (.andReg x y) s = .next t ∧ t = { s with v := t.v, pc := s.pc + 2 } ∧
      (∀ b, (t.reg x).getLsbD b = ((s.reg x).getLsbD b && (s.reg y).getLsbD b)) ∧
      (∀ z, z ≠ x → t.reg z = s.reg z) ∧ ∀ a, t.readByte a = s.readByte a) ∧
    (∃ t, exec (.xorReg x y) s = .next t ∧ t = { s with v := t.v, pc := s.pc + 2 } ∧
      (∀ b, (t.reg x).getLsbD b = ((s.reg x).getLsbD b ^^ (s.reg y).getLsbD b)) ∧
      (∀ z, z ≠ x → t.reg z = s.reg z) ∧ ∀ a, t.readByte a = s.readByte a)

/-- R156: ADD Vx, Vy: the sum modulo 256, and the carry of the values before the instruction, written last. -/
def Obligations.AddWritesSumThenCarry : Prop :=
  ∀ (x y : Reg) (s : State),
    decodeWord (nibbles 0x8 x y 4) = .ok (.addReg x y) ∧
    ∃ t, exec (.addReg x y) s = .next t ∧ t = { s with v := t.v, pc := s.pc + 2 } ∧
      t.reg 15 = (if (s.reg x).toNat + (s.reg y).toNat > 255 then 1 else 0) ∧
      (x ≠ 15 → (t.reg x).toNat = ((s.reg x).toNat + (s.reg y).toNat) % 256) ∧
      (∀ z, z ≠ x → z ≠ 15 → t.reg z = s.reg z) ∧ ∀ a, t.readByte a = s.readByte a

/-- R157, R159: SUB and SUBN: the difference modulo 256, and 1 in VF exactly when there is no borrow, written last. -/
def Obligations.SubtractWritesDifferenceThenNotBorrow : Prop :=
  ∀ (x y : Reg) (s : State),
    decodeWord (nibbles 0x8 x y 5) = .ok (.subReg x y) ∧ decodeWord (nibbles 0x8 x y 7) = .ok (.subnReg x y) ∧
    (∃ t, exec (.subReg x y) s = .next t ∧ t = { s with v := t.v, pc := s.pc + 2 } ∧
      t.reg 15 = (if (s.reg x).toNat ≥ (s.reg y).toNat then 1 else 0) ∧
      (x ≠ 15 → ((t.reg x).toNat : Int) = ((s.reg x).toNat - (s.reg y).toNat : Int) % 256) ∧
      (∀ z, z ≠ x → z ≠ 15 → t.reg z = s.reg z) ∧ ∀ a, t.readByte a = s.readByte a) ∧
    (∃ t, exec (.subnReg x y) s = .next t ∧ t = { s with v := t.v, pc := s.pc + 2 } ∧
      t.reg 15 = (if (s.reg y).toNat ≥ (s.reg x).toNat then 1 else 0) ∧
      (x ≠ 15 → ((t.reg x).toNat : Int) = ((s.reg y).toNat - (s.reg x).toNat : Int) % 256) ∧
      (∀ z, z ≠ x → z ≠ 15 → t.reg z = s.reg z) ∧ ∀ a, t.readByte a = s.readByte a)

/-- R158, R160: SHR and SHL: Vx by one, in place and whatever y is, and the bit shifted out in VF, written last. -/
def Obligations.ShiftsWriteResultThenShiftedOutBit : Prop :=
  ∀ (x y : Reg) (s : State),
    decodeWord (nibbles 0x8 x y 6) = .ok (.shr x y) ∧ decodeWord (nibbles 0x8 x y 0xE) = .ok (.shl x y) ∧
    (∃ t, exec (.shr x y) s = .next t ∧ t = { s with v := t.v, pc := s.pc + 2 } ∧
      (t.reg 15).toNat = (s.reg x).toNat % 2 ∧
      (x ≠ 15 → (t.reg x).toNat = (s.reg x).toNat / 2) ∧
      (∀ z, z ≠ x → z ≠ 15 → t.reg z = s.reg z) ∧ ∀ a, t.readByte a = s.readByte a) ∧
    (∃ t, exec (.shl x y) s = .next t ∧ t = { s with v := t.v, pc := s.pc + 2 } ∧
      (t.reg 15).toNat = (s.reg x).toNat / 128 ∧
      (x ≠ 15 → (t.reg x).toNat = (s.reg x).toNat * 2 % 256) ∧
      (∀ z, z ≠ x → z ≠ 15 → t.reg z = s.reg z) ∧ ∀ a, t.readByte a = s.readByte a)

/-- The laws of the flag-writing arithmetic: result and flag together are the exact result
(spec/95_test_vectors.md, section 2.2). -/
def Obligations.ResultAndFlagAreTheExactResult : Prop :=
  ∀ (x y : Reg) (s t : State), x ≠ 15 →
    (exec (.addReg x y) s = .next t →
      (t.reg x).toNat + 256 * (t.reg 15).toNat = (s.reg x).toNat + (s.reg y).toNat) ∧
    (exec (.subReg x y) s = .next t →
      (t.reg x).toNat + (s.reg y).toNat = (s.reg x).toNat + 256 * (1 - (t.reg 15).toNat)) ∧
    (exec (.subnReg x y) s = .next t →
      (t.reg x).toNat + (s.reg x).toNat = (s.reg y).toNat + 256 * (1 - (t.reg 15).toNat)) ∧
    (exec (.shr x y) s = .next t → 2 * (t.reg x).toNat + (t.reg 15).toNat = (s.reg x).toNat) ∧
    (exec (.shl x y) s = .next t → (t.reg x).toNat + 256 * (t.reg 15).toNat = 2 * (s.reg x).toNat)

/-! ## Index register, random, display -/

/-- R170, R171, R172: the three writes of I: an immediate, a sum modulo 65536, a glyph address; VF is not written. -/
def Obligations.IndexRegisterWrites : Prop :=
  ∀ (nnn : BitVec 12) (x : Reg) (s : State),
    decodeWord (nibbleAddr 0xA nnn) = .ok (.ldI nnn) ∧ decodeWord (nibblesByte 0xF x 0x1E) = .ok (.addIVx x) ∧
    decodeWord (nibblesByte 0xF x 0x29) = .ok (.ldFVx x) ∧
    (∃ t, exec (.ldI nnn) s = .next t ∧ t = { s with i := t.i, pc := s.pc + 2 } ∧
      t.i.toNat = nnn.toNat ∧ ∀ a, t.readByte a = s.readByte a) ∧
    (∃ t, exec (.addIVx x) s = .next t ∧ t = { s with i := t.i, pc := s.pc + 2 } ∧
      t.i.toNat = (s.i.toNat + (s.reg x).toNat) % 65536 ∧ ∀ a, t.readByte a = s.readByte a) ∧
    (∃ t, exec (.ldFVx x) s = .next t ∧ t = { s with i := t.i, pc := s.pc + 2 } ∧
      t.i.toNat = 5 * (s.reg x).toNat ∧ ∀ a, t.readByte a = s.readByte a)

/-- RND Vx, kk (R180): the random byte of this Step under the mask, whichever of the 256 values it is. No other instruction
reads the byte. Where the byte comes from is assumption 3: that it is the one a scheduled Step carries is DEDUCED, that with
nothing scheduled it is the free draw `Config.rnd` of the count `draws`, which goes up by one, is the model's DESIGN CHOICE;
nothing constrains the draw's value. -/
def Obligations.RandomIsAMaskedFreeByte : Prop :=
  (∀ (x : Reg) (kk : Byte) (s : State),
    decodeWord (nibblesByte 0xC x kk) = .ok (.rnd x kk) ∧
    ∃ t, exec (.rnd x kk) s = .next t ∧ t = { s with v := t.v, pc := s.pc + 2, draws := s.draws + 1 } ∧
      (∀ b es, s.pending = .step b :: es → t.reg x = b &&& kk) ∧
      (s.pending = [] → t.reg x = Config.rnd s.draws &&& kk) ∧
      t.reg x &&& ~~~kk = 0 ∧
      (∀ z, z ≠ x → t.reg z = s.reg z) ∧ ∀ a, t.readByte a = s.readByte a) ∧
  ∀ (i : Instr) (s : State) (b c : Byte) (es : List Event), (∀ x kk, i ≠ .rnd x kk) →
    delivered es (exec i { s with pending := .step b :: es }) = delivered es (exec i { s with pending := .step c :: es })

/-- R185: CLS turns every pixel off and writes no V register. -/
def Obligations.ClearTurnsEveryPixelOff : Prop :=
  decodeWord 0x00E0 = .ok .cls ∧
  ∀ s : State, ∃ t, exec .cls s = .next t ∧ t = { s with fb := t.fb, pc := s.pc + 2 } ∧
    (∀ r c, pixel t.fb r c = false) ∧ ∀ a, t.readByte a = s.readByte a

/-- R186: DRW Vx, Vy, n: the n bytes at I drawn at Vx, Vy, both read before VF is overwritten with the collision; no
effect but the record where an address is above memory. -/
def Obligations.DrawReadsTheSpriteAndSetsCollision : Prop :=
  ∀ (x y : Reg) (n : BitVec 4) (s : State),
    decodeWord (nibbles 0xD x y n.toNat) = .ok (.drw x y n) ∧
    (n = 0 ∨ s.i.toNat + n.toNat - 1 ≤ 0xFFF →
      ∃ t sprite, exec (.drw x y n) s = .next t ∧ t = { s with v := t.v, fb := t.fb, pc := s.pc + 2 } ∧
        sprite.length = n.toNat ∧ (∀ j, j < n.toNat → sprite[j]? = some (s.readByte (s.i.toNat + j))) ∧
        t.fb = (draw (s.reg x).toNat (s.reg y).toNat sprite s.fb).frame ∧
        t.reg 15 = (if (draw (s.reg x).toNat (s.reg y).toNat sprite s.fb).collision then 1 else 0) ∧
        (∀ z, z ≠ 15 → t.reg z = s.reg z) ∧ ∀ a, t.readByte a = s.readByte a) ∧
    (0 < n.toNat → 0xFFF < s.i.toNat + n.toNat - 1 →
      exec (.drw x y n) s = .next { s with
        halt := some ⟨.outOfRangeAccess, nibbles 0xD x y n.toNat, s.pc, BitVec.ofNat 17 (max s.i.toNat 0x1000)⟩ })

/-- The draw in closed form (R187, R188 (a), (b)): every pixel a set sprite bit lands on is inverted, every other pixel
kept, rows and columns wrapping; collision exactly when one of them was on. -/
def Obligations.DrawInvertsExactlyTheLitPixels : Prop :=
  ∀ (x0 y0 : Nat) (sprite : List Byte) (f : Frame), sprite.length ≤ 15 →
    (∀ r c, SpriteLit x0 y0 sprite r c → pixel (draw x0 y0 sprite f).frame r c = !pixel f r c) ∧
    (∀ r c, ¬ SpriteLit x0 y0 sprite r c → pixel (draw x0 y0 sprite f).frame r c = pixel f r c) ∧
    ((draw x0 y0 sprite f).collision = true ↔ ∃ r c, SpriteLit x0 y0 sprite r c ∧ pixel f r c = true)

/-- Drawing the same sprite twice at one origin restores the display. The second draw collides exactly when a lit pixel
was off to begin with; so on a clear display the first draw never collides and the second does exactly when the sprite has
a set bit (R188 (c); on a display that is not clear its second clause does not follow from R187, assumption 10). A sprite
of zero bytes changes nothing (R188 (d)). -/
def Obligations.DrawingTwiceRestoresTheDisplay : Prop :=
  ∀ (x0 y0 : Nat) (sprite : List Byte) (f : Frame), sprite.length ≤ 15 →
    (draw x0 y0 sprite (draw x0 y0 sprite f).frame).frame = f ∧
    ((draw x0 y0 sprite (draw x0 y0 sprite f).frame).collision = true ↔
      ∃ r c, SpriteLit x0 y0 sprite r c ∧ pixel f r c = false) ∧
    ((∀ r c, pixel f r c = false) →
      (draw x0 y0 sprite f).collision = false ∧
      ((draw x0 y0 sprite (draw x0 y0 sprite f).frame).collision = true ↔ ∃ byte ∈ sprite, byte ≠ 0)) ∧
    ((∀ byte ∈ sprite, byte = 0) → draw x0 y0 sprite f = ⟨f, false⟩)

/-- Origins that differ by multiples of the display's size draw the same pixels (R188 (e)). -/
def Obligations.DrawOriginsWrap : Prop :=
  ∀ (x0 y0 p q : Nat) (sprite : List Byte) (f : Frame),
    draw (x0 + 64 * p) (y0 + 32 * q) sprite f = draw x0 y0 sprite f

/-! ## Timers, BCD and block transfers (spec/45_timer_bcd_block.md) -/

/-- R195, R196, R197: the transfers between registers and timers. -/
def Obligations.TimerTransfersCopyOneByte : Prop :=
  ∀ (x : Reg) (s : State),
    decodeWord (nibblesByte 0xF x 0x07) = .ok (.ldVxDt x) ∧ decodeWord (nibblesByte 0xF x 0x15) = .ok (.ldDtVx x) ∧
    decodeWord (nibblesByte 0xF x 0x18) = .ok (.ldStVx x) ∧
    (∃ t, exec (.ldVxDt x) s = .next t ∧ t = { s with v := t.v, pc := s.pc + 2 } ∧
      t.reg x = s.dt ∧ (∀ z, z ≠ x → t.reg z = s.reg z) ∧ ∀ a, t.readByte a = s.readByte a) ∧
    (∃ t, exec (.ldDtVx x) s = .next t ∧ t = { s with dt := s.reg x, pc := s.pc + 2 } ∧
      ∀ a, t.readByte a = s.readByte a) ∧
    (∃ t, exec (.ldStVx x) s = .next t ∧ t = { s with st := s.reg x, pc := s.pc + 2 } ∧
      (t.sound = true ↔ s.reg x ≠ 0) ∧ ∀ a, t.readByte a = s.readByte a)

/-- R198: LD B, Vx: the three decimal digits at I, I+1, I+2, and no other byte; nothing but the record where one of the
three addresses is not writable. -/
def Obligations.BcdStoresThreeDigits : Prop :=
  ∀ (x : Reg) (s : State),
    decodeWord (nibblesByte 0xF x 0x33) = .ok (.ldBVx x) ∧
    (0x50 ≤ s.i.toNat → s.i.toNat + 2 ≤ 0xFFF →
      ∃ t, exec (.ldBVx x) s = .next t ∧ t = { s with mem := t.mem, pc := s.pc + 2 } ∧
        (t.readByte s.i.toNat).toNat = (s.reg x).toNat / 100 ∧
        (t.readByte (s.i.toNat + 1)).toNat = (s.reg x).toNat / 10 % 10 ∧
        (t.readByte (s.i.toNat + 2)).toNat = (s.reg x).toNat % 10 ∧
        ∀ a, a < s.i.toNat ∨ s.i.toNat + 2 < a → t.readByte a = s.readByte a) ∧
    (s.i.toNat < 0x50 ∨ 0xFFF < s.i.toNat + 2 →
      exec (.ldBVx x) s = .next { s with
        halt := some ⟨.outOfRangeAccess, nibblesByte 0xF x 0x33, s.pc,
          BitVec.ofNat 17 (if s.i.toNat < 0x50 then s.i.toNat else max s.i.toNat 0x1000)⟩ })

/-- R199: LD [I], Vx: V0 to Vx inclusive at I to I+x, and no other byte; nothing but the record where one of the
addresses is not writable. -/
def Obligations.BulkStoreWritesV0ThroughVx : Prop :=
  ∀ (x : Reg) (s : State),
    decodeWord (nibblesByte 0xF x 0x55) = .ok (.ldMemVx x) ∧
    (0x50 ≤ s.i.toNat → s.i.toNat + x.val ≤ 0xFFF →
      ∃ t, exec (.ldMemVx x) s = .next t ∧ t = { s with mem := t.mem, pc := s.pc + 2 } ∧
        (∀ z : Reg, z ≤ x → t.readByte (s.i.toNat + z.val) = s.reg z) ∧
        ∀ a, a < s.i.toNat ∨ s.i.toNat + x.val < a → t.readByte a = s.readByte a) ∧
    (s.i.toNat < 0x50 ∨ 0xFFF < s.i.toNat + x.val →
      exec (.ldMemVx x) s = .next { s with
        halt := some ⟨.outOfRangeAccess, nibblesByte 0xF x 0x55, s.pc,
          BitVec.ofNat 17 (if s.i.toNat < 0x50 then s.i.toNat else max s.i.toNat 0x1000)⟩ })

/-- R200: LD Vx, [I]: V0 to Vx inclusive from I to I+x, and no other register; nothing but the record where an address
is above memory. -/
def Obligations.BulkLoadReadsV0ThroughVx : Prop :=
  ∀ (x : Reg) (s : State),
    decodeWord (nibblesByte 0xF x 0x65) = .ok (.ldVxMem x) ∧
    (s.i.toNat + x.val ≤ 0xFFF →
      ∃ t, exec (.ldVxMem x) s = .next t ∧ t = { s with v := t.v, pc := s.pc + 2 } ∧
        (∀ z : Reg, z ≤ x → t.reg z = s.readByte (s.i.toNat + z.val)) ∧
        (∀ z : Reg, x < z → t.reg z = s.reg z) ∧ ∀ a, t.readByte a = s.readByte a) ∧
    (0xFFF < s.i.toNat + x.val →
      exec (.ldVxMem x) s = .next { s with
        halt := some ⟨.outOfRangeAccess, nibblesByte 0xF x 0x65, s.pc, BitVec.ofNat 17 (max s.i.toNat 0x1000)⟩ })

/-- A block stored and loaded again from the same I gives back the registers stored, whatever they held in between
(the round-trip property of R200). -/
def Obligations.BulkStoreThenLoadRecoversTheRegisters : Prop :=
  ∀ (x : Reg) (s t u : State) (v : Vector Byte 16), 0x50 ≤ s.i.toNat → s.i.toNat + x.val ≤ 0xFFF →
    exec (.ldMemVx x) s = .next t → exec (.ldVxMem x) { t with v := v } = .next u →
    (∀ z : Reg, z ≤ x → u.reg z = s.reg z) ∧ ∀ z : Reg, x < z → u.reg z = v[z]

/-! ## Key-wait (spec/46_keywait.md) -/

/-- R210: LD Vx, K blocks the machine and remembers x; PC, KEY and every register stay. -/
def Obligations.KeyWaitBlocksAtItsOwnAddress : Prop :=
  ∀ (x : Reg) (s : State),
    decodeWord (nibblesByte 0xF x 0x0A) = .ok (.ldVxK x) ∧
    ∃ t, exec (.ldVxK x) s = .next t ∧ t = { s with mode := .blockedOnKey, kreg := x } ∧
      ∀ a, t.readByte a = s.readByte a

/-! ## Memory (spec/20_memory.md) -/

/-- The fetched word has the byte at PC as its more significant byte, and placing a word's bytes in memory order at PC is
how that word comes to be fetched (R72). -/
def Obligations.FetchIsBigEndian : Prop :=
  ∀ s : State,
    s.fetchWord.toNat = 256 * (s.readByte s.pc.toNat).toNat + (s.readByte (s.pc.toNat + 1)).toNat ∧
    ∀ w : Word, (s.writeBytes s.pc.toNat (bytesOfWord w)).fetchWord = w

/-- R73: a read of n bytes gives them in ascending order, or the first address above 0xFFF. -/
def Obligations.MemReadChecksThenReads : Prop :=
  ∀ (s : State) (a n : Nat), 0 < n →
    (a + n - 1 ≤ 0xFFF → ∃ bytes, s.memRead a n = .ok bytes ∧ bytes.length = n ∧
      ∀ j, j < n → bytes[j]? = some (s.readByte (a + j))) ∧
    (0xFFF < a + n - 1 → s.memRead a n = .error (max a 0x1000))

/-- R74: a write of one byte changes exactly that byte, or names the address where it is above 0xFFF or in the glyph
region. -/
def Obligations.MemWriteChangesOneByte : Prop :=
  ∀ (s : State) (a : Nat) (b : Byte),
    (0xFFF < a → s.memWrite a [b] = .error a) ∧
    (a ≤ 0x4F → s.memWrite a [b] = .error a) ∧
    (0x50 ≤ a → a ≤ 0xFFF → ∃ t, s.memWrite a [b] = .ok t ∧ t = { s with mem := t.mem } ∧
      t.readByte a = b ∧ ∀ k, k ≠ a → t.readByte k = s.readByte k)

/-- The glyph region holds GLYPH_ROM, whatever that parameter is, and keeps it under every step (R76, R79). -/
def Obligations.GlyphRegionIsReadOnly : Prop :=
  ∀ (s t : State), Memory.wf s.mem = true → step s = .next t →
    t.glyphRom = s.glyphRom ∧ ∀ a : Fin 80, s.readByte a = s.glyphRom[a] ∧ t.readByte a = s.glyphRom[a]

/-- A byte of memory changes only under Load (whole or through the load port), Reset, the BCD store and the bulk store, and
only where each of them writes (R81). -/
def Obligations.MemoryChangesOnlyWhereItsWritersWrite : Prop :=
  ∀ (s t : State) (a : Nat), step s = .next t → t.readByte a ≠ s.readByte a →
    (∃ es, s.pending = .reset :: es) ∨
    (∃ image es, s.pending = .load image :: es ∧ 0x200 ≤ a ∧ a < 0x200 + image.length) ∨
    (∃ index data es, s.pending = .loadPort index data :: es ∧ a = 0x200 + index.toNat) ∨
    (s.StepIsNext ∧ 0x50 ≤ a ∧ a ≤ 0xFFF ∧
      ((∃ x, decodeWord s.fetchWord = .ok (.ldBVx x) ∧ s.i.toNat ≤ a ∧ a ≤ s.i.toNat + 2) ∨
       (∃ x : Reg, decodeWord s.fetchWord = .ok (.ldMemVx x) ∧ s.i.toNat ≤ a ∧ a ≤ s.i.toNat + x.val)))

/-- Bytes stored over the next instruction are what the next Step fetches and runs (R86). -/
def Obligations.StoredCodeRunsAtOnce : Prop :=
  ∀ (s t : State) (x p q : Reg) (i : Instr), s.Ready → fetchable s.pc = true →
    decodeWord s.fetchWord = .ok (.ldMemVx x) → 0x50 ≤ s.i.toNat → s.i.toNat + x.val ≤ 0xFFF →
    p ≤ x → q ≤ x → s.i.toNat + p.val = s.pc.toNat + 2 → s.i.toNat + q.val = s.pc.toNat + 3 →
    decodeWord (wordOfBytes (s.reg p) (s.reg q)) = .ok i → step s = .next t → step t = exec i t

/-! ## The whole machine -/

/-- A general register changes only under an instruction that names it as a destination, alone or in its block (R31), and
VF also under the six flag-writing instructions, which leave 0 or 1 in it (R32). -/
def Obligations.RegistersHaveAClosedListOfWriters : Prop :=
  ∀ (i : Instr) (s t : State), exec i s = .next t →
    (∀ z, z ≠ 15 → t.reg z ≠ s.reg z → IsDestination z i) ∧
    (t.reg 15 ≠ s.reg 15 → WritesFlag i ∨ IsDestination 15 i) ∧
    (WritesFlag i → s.halt = none → t.halt = none → t.reg 15 = 0 ∨ t.reg 15 = 1)

/-- Every element but the general registers has a closed list of instructions that write it (R33, R36 to R39, R41 to R43,
R81, R222), and so have the model's own fields. PC: npc, but for a taken skip (pc + 4), a jump (whose own statement gives
its target), the key-wait and a recorded fatal condition, which leave it. -/
def Obligations.EveryElementHasAClosedListOfWriters : Prop :=
  ∀ (i : Instr) (s t : State), exec i s = .next t →
    (t.i ≠ s.i → (∃ nnn, i = .ldI nnn) ∨ (∃ x, i = .addIVx x) ∨ ∃ x, i = .ldFVx x) ∧
    (t.pc ≠ s.pc + 2 →
      (IsSkip i ∧ t.pc = s.pc + 4) ∨ IsJump i ∨ ((∃ x, i = .ldVxK x) ∧ t.pc = s.pc) ∨
      (MayHalt i ∧ t.pc = s.pc ∧ ∃ r, t.halt = some r ∧ r.addr = s.pc)) ∧
    ((∃ x, i = .ldVxK x) → t.pc = s.pc) ∧
    (t.sp ≠ s.sp → (∃ nnn, i = .call nnn) ∨ i = .ret) ∧
    (t.stack ≠ s.stack → ∃ nnn, i = .call nnn) ∧
    (t.dt ≠ s.dt → ∃ x, i = .ldDtVx x) ∧
    (t.st ≠ s.st → ∃ x, i = .ldStVx x) ∧
    (t.mem ≠ s.mem → (∃ x, i = .ldBVx x) ∨ ∃ x, i = .ldMemVx x) ∧
    (t.fb ≠ s.fb → i = .cls ∨ ∃ x y n, i = .drw x y n) ∧
    (t.mode ≠ s.mode ∨ t.kreg ≠ s.kreg → ∃ x, i = .ldVxK x) ∧
    (t.halt ≠ s.halt → MayHalt i) ∧
    (t.draws ≠ s.draws → ∃ x kk, i = .rnd x kk) ∧
    t.key = s.key ∧ t.glyphRom = s.glyphRom ∧ t.resets = s.resets ∧ t.boot = s.boot ∧ t.pending = s.pending

/-- No instruction reads ST, MODE, KREG or HALT: an instruction does to a state in which they hold other values what it
does to this one, leaving them as they were unless it writes them (R39, R43, R44). -/
def Obligations.NoInstructionReadsStModeKregOrHalt : Prop :=
  ∀ (i : Instr) (s t : State) (st : Byte) (mode : Mode) (kreg : Reg) (halt : Option HaltRecord),
    exec i s = .next t →
    ∃ u, exec i { s with st := st, mode := mode, kreg := kreg, halt := halt } = .next u ∧
      u = { t with st := u.st, mode := u.mode, kreg := u.kreg, halt := u.halt } ∧
      (u.st = st ∨ u.st = t.st) ∧ (u.mode = mode ∨ u.mode = t.mode) ∧ (u.kreg = kreg ∨ u.kreg = t.kreg) ∧
      (u.halt = halt ∨ u.halt = t.halt)

/-- The invariant holds after Reset. -/
def Obligations.InvariantHoldsAtReset : Prop := State.reset.Inv

/-- Every step keeps the invariant: memory canonical with the glyph region untouched, a halted machine Running and its
record true of it, a blocked machine at the key-wait that blocked it. -/
def Obligations.EveryStepKeepsTheInvariant : Prop :=
  ∀ s t : State, s.Inv → step s = .next t → t.Inv
end

