-- ==== Sys2Proof/Laws/Decode.lean ====
section
/-! SUPPORT. The fields of a word and the formats as numbers, and the words the formats spell. -/

namespace Sys2Proof

open Machine (nibbles nibbleAddr nibblesByte)

/-! Each field as a number -/

theorem opField_eq (w : Word) : opField w = w.toNat / 4096 := by
  have := w.isLt
  simp only [opField, BitVec.extractLsb'_toNat, Nat.shiftRight_eq_div_pow]
  omega

theorem val_xField (w : Word) : (xField w).val = w.toNat / 256 % 16 := by
  show (w.extractLsb' 8 4).toNat = _
  simp only [BitVec.extractLsb'_toNat, Nat.shiftRight_eq_div_pow]

theorem val_yField (w : Word) : (yField w).val = w.toNat / 16 % 16 := by
  show (w.extractLsb' 4 4).toNat = _
  simp only [BitVec.extractLsb'_toNat, Nat.shiftRight_eq_div_pow]

theorem toNat_nField (w : Word) : (nField w).toNat = w.toNat % 16 := by
  simp [nField]

theorem toNat_kkField (w : Word) : (kkField w).toNat = w.toNat % 256 := by
  simp [kkField]

theorem toNat_nnnField (w : Word) : (nnnField w).toNat = w.toNat % 4096 := by
  simp [nnnField]

/-! Each format as a number -/

theorem toNat_formatA (op : BitVec 4) (nnn : BitVec 12) :
    (formatA op nnn).toNat = op.toNat * 4096 + nnn.toNat := by
  rw [formatA, BitVec.toNat_append, ← Nat.shiftLeft_add_eq_or_of_lt nnn.isLt, Nat.shiftLeft_eq]

theorem toNat_formatXK (op : BitVec 4) (x : Reg) (kk : Byte) :
    (formatXK op x kk).toNat = op.toNat * 4096 + (x.val * 256 + kk.toNat) := by
  have h : (regBits x ++ kk).toNat = x.val * 256 + kk.toNat := by
    rw [BitVec.toNat_append, ← Nat.shiftLeft_add_eq_or_of_lt kk.isLt, Nat.shiftLeft_eq]; rfl
  rw [formatXK, BitVec.toNat_append, ← Nat.shiftLeft_add_eq_or_of_lt (BitVec.isLt _), Nat.shiftLeft_eq, h]

theorem toNat_formatXYN (op : BitVec 4) (x y : Reg) (n : BitVec 4) :
    (formatXYN op x y n).toNat = op.toNat * 4096 + (x.val * 256 + (y.val * 16 + n.toNat)) := by
  have h1 : (regBits y ++ n).toNat = y.val * 16 + n.toNat := by
    rw [BitVec.toNat_append, ← Nat.shiftLeft_add_eq_or_of_lt n.isLt, Nat.shiftLeft_eq]; rfl
  have h2 : (regBits x ++ (regBits y ++ n)).toNat = x.val * 256 + (y.val * 16 + n.toNat) := by
    rw [BitVec.toNat_append, ← Nat.shiftLeft_add_eq_or_of_lt (BitVec.isLt _), Nat.shiftLeft_eq, h1]; rfl
  rw [formatXYN, BitVec.toNat_append, ← Nat.shiftLeft_add_eq_or_of_lt (BitVec.isLt _), Nat.shiftLeft_eq, h2]

/-! The fields of each format -/

section Fields

variable (op : BitVec 4) (x y : Reg) (n : BitVec 4) (kk : Byte) (nnn : BitVec 12)

@[simp] theorem opField_formatA : opField (formatA op nnn) = op.toNat := by
  rw [opField_eq, toNat_formatA]; omega

@[simp] theorem nnnField_formatA : nnnField (formatA op nnn) = nnn := by
  apply BitVec.eq_of_toNat_eq; rw [toNat_nnnField, toNat_formatA]; omega

@[simp] theorem opField_formatXK : opField (formatXK op x kk) = op.toNat := by
  rw [opField_eq, toNat_formatXK]; omega

@[simp] theorem xField_formatXK : xField (formatXK op x kk) = x := by
  apply Fin.ext; rw [val_xField, toNat_formatXK]; omega

@[simp] theorem kkField_formatXK : kkField (formatXK op x kk) = kk := by
  apply BitVec.eq_of_toNat_eq; rw [toNat_kkField, toNat_formatXK]; omega

@[simp] theorem opField_formatXYN : opField (formatXYN op x y n) = op.toNat := by
  rw [opField_eq, toNat_formatXYN]; omega

@[simp] theorem xField_formatXYN : xField (formatXYN op x y n) = x := by
  apply Fin.ext; rw [val_xField, toNat_formatXYN]; omega

@[simp] theorem yField_formatXYN : yField (formatXYN op x y n) = y := by
  apply Fin.ext; rw [val_yField, toNat_formatXYN]; omega

@[simp] theorem nField_formatXYN : nField (formatXYN op x y n) = n := by
  apply BitVec.eq_of_toNat_eq; rw [toNat_nField, toNat_formatXYN]; omega

end Fields

/-! The pattern notation spells the formats -/

theorem nibbles_eq_formatXYN (op : BitVec 4) (x y : Reg) (n : BitVec 4) :
    nibbles op.toNat x y n.toNat = formatXYN op x y n := by
  apply BitVec.eq_of_toNat_eq
  rw [toNat_formatXYN, nibbles, BitVec.toNat_ofNat]; omega

theorem nibblesByte_eq_formatXK (op : BitVec 4) (x : Reg) (kk : Byte) :
    nibblesByte op.toNat x kk = formatXK op x kk := by
  apply BitVec.eq_of_toNat_eq
  rw [toNat_formatXK, nibblesByte, BitVec.toNat_ofNat]; omega

theorem nibbleAddr_eq_formatA (op : BitVec 4) (nnn : BitVec 12) :
    nibbleAddr op.toNat nnn = formatA op nnn := by
  apply BitVec.eq_of_toNat_eq
  rw [toNat_formatA, nibbleAddr, BitVec.toNat_ofNat]; omega

/-! Bytes and words -/

theorem wordOfBytes_bytesOfWord (w : Word) : wordOfBytes (w.extractLsb' 8 8) (w.extractLsb' 0 8) = w := by
  apply BitVec.eq_of_toNat_eq
  have := w.isLt
  rw [wordOfBytes, BitVec.toNat_append, ← Nat.shiftLeft_add_eq_or_of_lt (BitVec.isLt _), Nat.shiftLeft_eq]
  simp only [BitVec.extractLsb'_toNat, Nat.shiftRight_eq_div_pow]
  omega

theorem decode_cons (hi lo : Byte) (rest : List Byte) :
    decode (hi :: lo :: rest) = (decodeWord (wordOfBytes hi lo)).map (·, rest) := by
  rw [decode]; split <;> simp_all [Except.map]

theorem decodeWord_of_some {w : Word} {i : Instr} (h : selectInstr w = some i) : decodeWord w = .ok i := by
  rw [decodeWord, h]

theorem decodeWord_of_none {w : Word} (h : selectInstr w = none) : decodeWord w = .error (.illegal w) := by
  rw [decodeWord, h]

theorem decodeWord_eq_ok_iff {w : Word} {i : Instr} : decodeWord w = .ok i ↔ selectInstr w = some i := by
  rw [decodeWord]; cases selectInstr w <;> simp

theorem decodeWord_eq_error_iff {w : Word} {r : DecodeReject} :
    decodeWord w = .error r ↔ selectInstr w = none ∧ r = .illegal w := by
  rw [decodeWord]; cases selectInstr w <;> simp [eq_comm]

/-! Words under the masks of the opcode map -/

/-- A word is its four nibbles. -/
theorem formatXYN_fields (w : Word) : formatXYN (w.extractLsb' 12 4) (xField w) (yField w) (nField w) = w := by
  apply BitVec.eq_of_toNat_eq
  have := w.isLt
  rw [toNat_formatXYN, val_xField, val_yField, toNat_nField, BitVec.extractLsb'_toNat, Nat.shiftRight_eq_div_pow]
  omega

theorem and_formatXYN (a b : BitVec 4) (x y x' y' : Reg) (n m : BitVec 4) :
    (formatXYN a x y n &&& formatXYN b x' y' m).toNat =
      (a &&& b).toNat * 4096 + ((regBits x &&& regBits x').toNat * 256 +
        ((regBits y &&& regBits y').toNat * 16 + (n &&& m).toNat)) := by
  have h (p q r t : BitVec 4) : (p ++ (q ++ (r ++ t)) : Word).toNat =
      p.toNat * 4096 + (q.toNat * 256 + (r.toNat * 16 + t.toNat)) := toNat_formatXYN p q.toFin r.toFin t
  rw [← h, ← BitVec.and_append, ← BitVec.and_append, ← BitVec.and_append]
  rfl

theorem toNat_and_F000 (w : Word) : (w &&& 0xF000#16).toNat = opField w * 4096 := by
  rw [← formatXYN_fields w, show 0xF000#16 = formatXYN 0xF 0 0 0 from rfl, and_formatXYN, opField_formatXYN]
  simp [regBits, show (0xF : BitVec 4) = BitVec.allOnes 4 from rfl, show (BitVec.ofFin (0 : Fin 16) : BitVec 4) = 0 from rfl,
    -BitVec.reduceAllOnes]

theorem toNat_and_F00F (w : Word) : (w &&& 0xF00F#16).toNat = opField w * 4096 + (nField w).toNat := by
  rw [← formatXYN_fields w, show 0xF00F#16 = formatXYN 0xF 0 0 0xF from rfl, and_formatXYN, opField_formatXYN,
    nField_formatXYN]
  simp [regBits, show (0xF : BitVec 4) = BitVec.allOnes 4 from rfl, show (BitVec.ofFin (0 : Fin 16) : BitVec 4) = 0 from rfl,
    -BitVec.reduceAllOnes]

theorem toNat_and_F0FF (w : Word) : (w &&& 0xF0FF#16).toNat = opField w * 4096 + (kkField w).toNat := by
  have hkk : (kkField w).toNat = (yField w).val * 16 + (nField w).toNat := by
    rw [toNat_kkField, val_yField, toNat_nField]; omega
  rw [hkk]
  conv_lhs => rw [← formatXYN_fields w, show 0xF0FF#16 = formatXYN 0xF 0 0xF 0xF from rfl, and_formatXYN]
  simp [regBits, show (0xF : BitVec 4) = BitVec.allOnes 4 from rfl, show (BitVec.ofFin (0 : Fin 16) : BitVec 4) = 0 from rfl,
    show (BitVec.ofFin (15 : Fin 16) : BitVec 4) = BitVec.allOnes 4 from rfl, -BitVec.reduceAllOnes, opField]

theorem and_FFFF (w : Word) : w &&& 0xFFFF#16 = w := by
  rw [show 0xFFFF#16 = BitVec.allOnes 16 from rfl, BitVec.and_allOnes]

/-! Whether a row of the opcode map selects a word, by its fields -/

theorem selects_F000 (bits w : Word) :
    (OpcodeRow.mk bits 0xF000#16).selects w = decide (opField w * 4096 = bits.toNat) := by
  rw [Bool.eq_iff_iff]
  simp only [OpcodeRow.selects, beq_iff_eq, decide_eq_true_eq, ← BitVec.toNat_inj, toNat_and_F000]

theorem selects_F00F (bits w : Word) :
    (OpcodeRow.mk bits 0xF00F#16).selects w =
      (decide (opField w = bits.toNat / 4096) && decide ((nField w).toNat = bits.toNat % 4096)) := by
  rw [Bool.eq_iff_iff]
  simp only [OpcodeRow.selects, beq_iff_eq, decide_eq_true_eq, Bool.and_eq_true, ← BitVec.toNat_inj, toNat_and_F00F]
  omega

theorem selects_F0FF (bits w : Word) :
    (OpcodeRow.mk bits 0xF0FF#16).selects w =
      (decide (opField w = bits.toNat / 4096) && decide ((kkField w).toNat = bits.toNat % 4096)) := by
  rw [Bool.eq_iff_iff]
  simp only [OpcodeRow.selects, beq_iff_eq, decide_eq_true_eq, Bool.and_eq_true, ← BitVec.toNat_inj, toNat_and_F0FF]
  omega

theorem selects_FFFF (bits w : Word) :
    (OpcodeRow.mk bits 0xFFFF#16).selects w =
      (decide (opField w = bits.toNat / 4096) && decide ((nnnField w).toNat = bits.toNat % 4096)) := by
  rw [Bool.eq_iff_iff]
  simp only [OpcodeRow.selects, beq_iff_eq, decide_eq_true_eq, Bool.and_eq_true, ← BitVec.toNat_inj, and_FFFF,
    opField_eq, toNat_nnnField]
  omega

end Sys2Proof
end

