-- ==== Sys2Proof/Laws/State.lean ====
section
/-! SUPPORT. What each state update leaves in each field, and the laws of the register accessors. -/

namespace Sys2Proof.Machine

variable (s : State)

@[simp] theorem State.setReg_v (x : Reg) (b : Byte) : (s.setReg x b).v = s.v.set x b := rfl
@[simp] theorem State.setReg_i (x : Reg) (b : Byte) : (s.setReg x b).i = s.i := rfl
@[simp] theorem State.setReg_pc (x : Reg) (b : Byte) : (s.setReg x b).pc = s.pc := rfl
@[simp] theorem State.setReg_sp (x : Reg) (b : Byte) : (s.setReg x b).sp = s.sp := rfl
@[simp] theorem State.setReg_stack (x : Reg) (b : Byte) : (s.setReg x b).stack = s.stack := rfl
@[simp] theorem State.setReg_dt (x : Reg) (b : Byte) : (s.setReg x b).dt = s.dt := rfl
@[simp] theorem State.setReg_st (x : Reg) (b : Byte) : (s.setReg x b).st = s.st := rfl
@[simp] theorem State.setReg_mem (x : Reg) (b : Byte) : (s.setReg x b).mem = s.mem := rfl
@[simp] theorem State.setReg_fb (x : Reg) (b : Byte) : (s.setReg x b).fb = s.fb := rfl
@[simp] theorem State.setReg_key (x : Reg) (b : Byte) : (s.setReg x b).key = s.key := rfl
@[simp] theorem State.setReg_mode (x : Reg) (b : Byte) : (s.setReg x b).mode = s.mode := rfl
@[simp] theorem State.setReg_kreg (x : Reg) (b : Byte) : (s.setReg x b).kreg = s.kreg := rfl
@[simp] theorem State.setReg_halt (x : Reg) (b : Byte) : (s.setReg x b).halt = s.halt := rfl
@[simp] theorem State.setReg_glyphRom (x : Reg) (b : Byte) : (s.setReg x b).glyphRom = s.glyphRom := rfl
@[simp] theorem State.setReg_draws (x : Reg) (b : Byte) : (s.setReg x b).draws = s.draws := rfl
@[simp] theorem State.setReg_resets (x : Reg) (b : Byte) : (s.setReg x b).resets = s.resets := rfl
@[simp] theorem State.setReg_boot (x : Reg) (b : Byte) : (s.setReg x b).boot = s.boot := rfl
@[simp] theorem State.setReg_pending (x : Reg) (b : Byte) : (s.setReg x b).pending = s.pending := rfl

@[simp] theorem State.setPc_v (a : Word) : (s.setPc a).v = s.v := rfl
@[simp] theorem State.setPc_i (a : Word) : (s.setPc a).i = s.i := rfl
@[simp] theorem State.setPc_pc (a : Word) : (s.setPc a).pc = a := rfl
@[simp] theorem State.setPc_sp (a : Word) : (s.setPc a).sp = s.sp := rfl
@[simp] theorem State.setPc_stack (a : Word) : (s.setPc a).stack = s.stack := rfl
@[simp] theorem State.setPc_dt (a : Word) : (s.setPc a).dt = s.dt := rfl
@[simp] theorem State.setPc_st (a : Word) : (s.setPc a).st = s.st := rfl
@[simp] theorem State.setPc_mem (a : Word) : (s.setPc a).mem = s.mem := rfl
@[simp] theorem State.setPc_fb (a : Word) : (s.setPc a).fb = s.fb := rfl
@[simp] theorem State.setPc_key (a : Word) : (s.setPc a).key = s.key := rfl
@[simp] theorem State.setPc_mode (a : Word) : (s.setPc a).mode = s.mode := rfl
@[simp] theorem State.setPc_kreg (a : Word) : (s.setPc a).kreg = s.kreg := rfl
@[simp] theorem State.setPc_halt (a : Word) : (s.setPc a).halt = s.halt := rfl
@[simp] theorem State.setPc_glyphRom (a : Word) : (s.setPc a).glyphRom = s.glyphRom := rfl
@[simp] theorem State.setPc_draws (a : Word) : (s.setPc a).draws = s.draws := rfl
@[simp] theorem State.setPc_resets (a : Word) : (s.setPc a).resets = s.resets := rfl
@[simp] theorem State.setPc_boot (a : Word) : (s.setPc a).boot = s.boot := rfl
@[simp] theorem State.setPc_pending (a : Word) : (s.setPc a).pending = s.pending := rfl

@[simp] theorem State.setI_v (a : Word) : (s.setI a).v = s.v := rfl
@[simp] theorem State.setI_i (a : Word) : (s.setI a).i = a := rfl
@[simp] theorem State.setI_pc (a : Word) : (s.setI a).pc = s.pc := rfl
@[simp] theorem State.setI_sp (a : Word) : (s.setI a).sp = s.sp := rfl
@[simp] theorem State.setI_stack (a : Word) : (s.setI a).stack = s.stack := rfl
@[simp] theorem State.setI_dt (a : Word) : (s.setI a).dt = s.dt := rfl
@[simp] theorem State.setI_st (a : Word) : (s.setI a).st = s.st := rfl
@[simp] theorem State.setI_mem (a : Word) : (s.setI a).mem = s.mem := rfl
@[simp] theorem State.setI_fb (a : Word) : (s.setI a).fb = s.fb := rfl
@[simp] theorem State.setI_key (a : Word) : (s.setI a).key = s.key := rfl
@[simp] theorem State.setI_mode (a : Word) : (s.setI a).mode = s.mode := rfl
@[simp] theorem State.setI_kreg (a : Word) : (s.setI a).kreg = s.kreg := rfl
@[simp] theorem State.setI_halt (a : Word) : (s.setI a).halt = s.halt := rfl
@[simp] theorem State.setI_glyphRom (a : Word) : (s.setI a).glyphRom = s.glyphRom := rfl
@[simp] theorem State.setI_draws (a : Word) : (s.setI a).draws = s.draws := rfl
@[simp] theorem State.setI_resets (a : Word) : (s.setI a).resets = s.resets := rfl
@[simp] theorem State.setI_boot (a : Word) : (s.setI a).boot = s.boot := rfl
@[simp] theorem State.setI_pending (a : Word) : (s.setI a).pending = s.pending := rfl

@[simp] theorem State.setDt_v (b : Byte) : (s.setDt b).v = s.v := rfl
@[simp] theorem State.setDt_i (b : Byte) : (s.setDt b).i = s.i := rfl
@[simp] theorem State.setDt_pc (b : Byte) : (s.setDt b).pc = s.pc := rfl
@[simp] theorem State.setDt_sp (b : Byte) : (s.setDt b).sp = s.sp := rfl
@[simp] theorem State.setDt_stack (b : Byte) : (s.setDt b).stack = s.stack := rfl
@[simp] theorem State.setDt_dt (b : Byte) : (s.setDt b).dt = b := rfl
@[simp] theorem State.setDt_st (b : Byte) : (s.setDt b).st = s.st := rfl
@[simp] theorem State.setDt_mem (b : Byte) : (s.setDt b).mem = s.mem := rfl
@[simp] theorem State.setDt_fb (b : Byte) : (s.setDt b).fb = s.fb := rfl
@[simp] theorem State.setDt_key (b : Byte) : (s.setDt b).key = s.key := rfl
@[simp] theorem State.setDt_mode (b : Byte) : (s.setDt b).mode = s.mode := rfl
@[simp] theorem State.setDt_kreg (b : Byte) : (s.setDt b).kreg = s.kreg := rfl
@[simp] theorem State.setDt_halt (b : Byte) : (s.setDt b).halt = s.halt := rfl
@[simp] theorem State.setDt_glyphRom (b : Byte) : (s.setDt b).glyphRom = s.glyphRom := rfl
@[simp] theorem State.setDt_draws (b : Byte) : (s.setDt b).draws = s.draws := rfl
@[simp] theorem State.setDt_resets (b : Byte) : (s.setDt b).resets = s.resets := rfl
@[simp] theorem State.setDt_boot (b : Byte) : (s.setDt b).boot = s.boot := rfl
@[simp] theorem State.setDt_pending (b : Byte) : (s.setDt b).pending = s.pending := rfl

@[simp] theorem State.setSt_v (b : Byte) : (s.setSt b).v = s.v := rfl
@[simp] theorem State.setSt_i (b : Byte) : (s.setSt b).i = s.i := rfl
@[simp] theorem State.setSt_pc (b : Byte) : (s.setSt b).pc = s.pc := rfl
@[simp] theorem State.setSt_sp (b : Byte) : (s.setSt b).sp = s.sp := rfl
@[simp] theorem State.setSt_stack (b : Byte) : (s.setSt b).stack = s.stack := rfl
@[simp] theorem State.setSt_dt (b : Byte) : (s.setSt b).dt = s.dt := rfl
@[simp] theorem State.setSt_st (b : Byte) : (s.setSt b).st = b := rfl
@[simp] theorem State.setSt_mem (b : Byte) : (s.setSt b).mem = s.mem := rfl
@[simp] theorem State.setSt_fb (b : Byte) : (s.setSt b).fb = s.fb := rfl
@[simp] theorem State.setSt_key (b : Byte) : (s.setSt b).key = s.key := rfl
@[simp] theorem State.setSt_mode (b : Byte) : (s.setSt b).mode = s.mode := rfl
@[simp] theorem State.setSt_kreg (b : Byte) : (s.setSt b).kreg = s.kreg := rfl
@[simp] theorem State.setSt_halt (b : Byte) : (s.setSt b).halt = s.halt := rfl
@[simp] theorem State.setSt_glyphRom (b : Byte) : (s.setSt b).glyphRom = s.glyphRom := rfl
@[simp] theorem State.setSt_draws (b : Byte) : (s.setSt b).draws = s.draws := rfl
@[simp] theorem State.setSt_resets (b : Byte) : (s.setSt b).resets = s.resets := rfl
@[simp] theorem State.setSt_boot (b : Byte) : (s.setSt b).boot = s.boot := rfl
@[simp] theorem State.setSt_pending (b : Byte) : (s.setSt b).pending = s.pending := rfl

@[simp] theorem State.setFb_v (f : Frame) : (s.setFb f).v = s.v := rfl
@[simp] theorem State.setFb_i (f : Frame) : (s.setFb f).i = s.i := rfl
@[simp] theorem State.setFb_pc (f : Frame) : (s.setFb f).pc = s.pc := rfl
@[simp] theorem State.setFb_sp (f : Frame) : (s.setFb f).sp = s.sp := rfl
@[simp] theorem State.setFb_stack (f : Frame) : (s.setFb f).stack = s.stack := rfl
@[simp] theorem State.setFb_dt (f : Frame) : (s.setFb f).dt = s.dt := rfl
@[simp] theorem State.setFb_st (f : Frame) : (s.setFb f).st = s.st := rfl
@[simp] theorem State.setFb_mem (f : Frame) : (s.setFb f).mem = s.mem := rfl
@[simp] theorem State.setFb_fb (f : Frame) : (s.setFb f).fb = f := rfl
@[simp] theorem State.setFb_key (f : Frame) : (s.setFb f).key = s.key := rfl
@[simp] theorem State.setFb_mode (f : Frame) : (s.setFb f).mode = s.mode := rfl
@[simp] theorem State.setFb_kreg (f : Frame) : (s.setFb f).kreg = s.kreg := rfl
@[simp] theorem State.setFb_halt (f : Frame) : (s.setFb f).halt = s.halt := rfl
@[simp] theorem State.setFb_glyphRom (f : Frame) : (s.setFb f).glyphRom = s.glyphRom := rfl
@[simp] theorem State.setFb_draws (f : Frame) : (s.setFb f).draws = s.draws := rfl
@[simp] theorem State.setFb_resets (f : Frame) : (s.setFb f).resets = s.resets := rfl
@[simp] theorem State.setFb_boot (f : Frame) : (s.setFb f).boot = s.boot := rfl
@[simp] theorem State.setFb_pending (f : Frame) : (s.setFb f).pending = s.pending := rfl

@[simp] theorem State.await_v (x : Reg) : (s.await x).v = s.v := rfl
@[simp] theorem State.await_i (x : Reg) : (s.await x).i = s.i := rfl
@[simp] theorem State.await_pc (x : Reg) : (s.await x).pc = s.pc := rfl
@[simp] theorem State.await_sp (x : Reg) : (s.await x).sp = s.sp := rfl
@[simp] theorem State.await_stack (x : Reg) : (s.await x).stack = s.stack := rfl
@[simp] theorem State.await_dt (x : Reg) : (s.await x).dt = s.dt := rfl
@[simp] theorem State.await_st (x : Reg) : (s.await x).st = s.st := rfl
@[simp] theorem State.await_mem (x : Reg) : (s.await x).mem = s.mem := rfl
@[simp] theorem State.await_fb (x : Reg) : (s.await x).fb = s.fb := rfl
@[simp] theorem State.await_key (x : Reg) : (s.await x).key = s.key := rfl
@[simp] theorem State.await_mode (x : Reg) : (s.await x).mode = .blockedOnKey := rfl
@[simp] theorem State.await_kreg (x : Reg) : (s.await x).kreg = x := rfl
@[simp] theorem State.await_halt (x : Reg) : (s.await x).halt = s.halt := rfl
@[simp] theorem State.await_glyphRom (x : Reg) : (s.await x).glyphRom = s.glyphRom := rfl
@[simp] theorem State.await_draws (x : Reg) : (s.await x).draws = s.draws := rfl
@[simp] theorem State.await_resets (x : Reg) : (s.await x).resets = s.resets := rfl
@[simp] theorem State.await_boot (x : Reg) : (s.await x).boot = s.boot := rfl
@[simp] theorem State.await_pending (x : Reg) : (s.await x).pending = s.pending := rfl

@[simp] theorem State.drawn_v : (s.drawn).v = s.v := rfl
@[simp] theorem State.drawn_i : (s.drawn).i = s.i := rfl
@[simp] theorem State.drawn_pc : (s.drawn).pc = s.pc := rfl
@[simp] theorem State.drawn_sp : (s.drawn).sp = s.sp := rfl
@[simp] theorem State.drawn_stack : (s.drawn).stack = s.stack := rfl
@[simp] theorem State.drawn_dt : (s.drawn).dt = s.dt := rfl
@[simp] theorem State.drawn_st : (s.drawn).st = s.st := rfl
@[simp] theorem State.drawn_mem : (s.drawn).mem = s.mem := rfl
@[simp] theorem State.drawn_fb : (s.drawn).fb = s.fb := rfl
@[simp] theorem State.drawn_key : (s.drawn).key = s.key := rfl
@[simp] theorem State.drawn_mode : (s.drawn).mode = s.mode := rfl
@[simp] theorem State.drawn_kreg : (s.drawn).kreg = s.kreg := rfl
@[simp] theorem State.drawn_halt : (s.drawn).halt = s.halt := rfl
@[simp] theorem State.drawn_glyphRom : (s.drawn).glyphRom = s.glyphRom := rfl
@[simp] theorem State.drawn_draws : (s.drawn).draws = s.draws + 1 := rfl
@[simp] theorem State.drawn_resets : (s.drawn).resets = s.resets := rfl
@[simp] theorem State.drawn_boot : (s.drawn).boot = s.boot := rfl
@[simp] theorem State.drawn_pending : (s.drawn).pending = s.pending := rfl

@[simp] theorem State.writeByte_v (a : Nat) (b : Byte) : (s.writeByte a b).v = s.v := rfl
@[simp] theorem State.writeByte_i (a : Nat) (b : Byte) : (s.writeByte a b).i = s.i := rfl
@[simp] theorem State.writeByte_pc (a : Nat) (b : Byte) : (s.writeByte a b).pc = s.pc := rfl
@[simp] theorem State.writeByte_sp (a : Nat) (b : Byte) : (s.writeByte a b).sp = s.sp := rfl
@[simp] theorem State.writeByte_stack (a : Nat) (b : Byte) : (s.writeByte a b).stack = s.stack := rfl
@[simp] theorem State.writeByte_dt (a : Nat) (b : Byte) : (s.writeByte a b).dt = s.dt := rfl
@[simp] theorem State.writeByte_st (a : Nat) (b : Byte) : (s.writeByte a b).st = s.st := rfl
@[simp] theorem State.writeByte_mem (a : Nat) (b : Byte) : (s.writeByte a b).mem = Memory.insert s.mem a b := rfl
@[simp] theorem State.writeByte_fb (a : Nat) (b : Byte) : (s.writeByte a b).fb = s.fb := rfl
@[simp] theorem State.writeByte_key (a : Nat) (b : Byte) : (s.writeByte a b).key = s.key := rfl
@[simp] theorem State.writeByte_mode (a : Nat) (b : Byte) : (s.writeByte a b).mode = s.mode := rfl
@[simp] theorem State.writeByte_kreg (a : Nat) (b : Byte) : (s.writeByte a b).kreg = s.kreg := rfl
@[simp] theorem State.writeByte_halt (a : Nat) (b : Byte) : (s.writeByte a b).halt = s.halt := rfl
@[simp] theorem State.writeByte_glyphRom (a : Nat) (b : Byte) : (s.writeByte a b).glyphRom = s.glyphRom := rfl
@[simp] theorem State.writeByte_draws (a : Nat) (b : Byte) : (s.writeByte a b).draws = s.draws := rfl
@[simp] theorem State.writeByte_resets (a : Nat) (b : Byte) : (s.writeByte a b).resets = s.resets := rfl
@[simp] theorem State.writeByte_boot (a : Nat) (b : Byte) : (s.writeByte a b).boot = s.boot := rfl
@[simp] theorem State.writeByte_pending (a : Nat) (b : Byte) : (s.writeByte a b).pending = s.pending := rfl

@[simp] theorem State.setRegs_v (bs : List Byte) : (s.setRegs bs).v = loadRegs s.v 0 bs := rfl
@[simp] theorem State.setRegs_i (bs : List Byte) : (s.setRegs bs).i = s.i := rfl
@[simp] theorem State.setRegs_pc (bs : List Byte) : (s.setRegs bs).pc = s.pc := rfl
@[simp] theorem State.setRegs_sp (bs : List Byte) : (s.setRegs bs).sp = s.sp := rfl
@[simp] theorem State.setRegs_stack (bs : List Byte) : (s.setRegs bs).stack = s.stack := rfl
@[simp] theorem State.setRegs_dt (bs : List Byte) : (s.setRegs bs).dt = s.dt := rfl
@[simp] theorem State.setRegs_st (bs : List Byte) : (s.setRegs bs).st = s.st := rfl
@[simp] theorem State.setRegs_mem (bs : List Byte) : (s.setRegs bs).mem = s.mem := rfl
@[simp] theorem State.setRegs_fb (bs : List Byte) : (s.setRegs bs).fb = s.fb := rfl
@[simp] theorem State.setRegs_key (bs : List Byte) : (s.setRegs bs).key = s.key := rfl
@[simp] theorem State.setRegs_mode (bs : List Byte) : (s.setRegs bs).mode = s.mode := rfl
@[simp] theorem State.setRegs_kreg (bs : List Byte) : (s.setRegs bs).kreg = s.kreg := rfl
@[simp] theorem State.setRegs_halt (bs : List Byte) : (s.setRegs bs).halt = s.halt := rfl
@[simp] theorem State.setRegs_glyphRom (bs : List Byte) : (s.setRegs bs).glyphRom = s.glyphRom := rfl
@[simp] theorem State.setRegs_draws (bs : List Byte) : (s.setRegs bs).draws = s.draws := rfl
@[simp] theorem State.setRegs_resets (bs : List Byte) : (s.setRegs bs).resets = s.resets := rfl
@[simp] theorem State.setRegs_boot (bs : List Byte) : (s.setRegs bs).boot = s.boot := rfl
@[simp] theorem State.setRegs_pending (bs : List Byte) : (s.setRegs bs).pending = s.pending := rfl

@[simp] theorem State.endBoot_v : (s.endBoot).v = s.v := rfl
@[simp] theorem State.endBoot_i : (s.endBoot).i = s.i := rfl
@[simp] theorem State.endBoot_pc : (s.endBoot).pc = s.pc := rfl
@[simp] theorem State.endBoot_sp : (s.endBoot).sp = s.sp := rfl
@[simp] theorem State.endBoot_stack : (s.endBoot).stack = s.stack := rfl
@[simp] theorem State.endBoot_dt : (s.endBoot).dt = s.dt := rfl
@[simp] theorem State.endBoot_st : (s.endBoot).st = s.st := rfl
@[simp] theorem State.endBoot_mem : (s.endBoot).mem = s.mem := rfl
@[simp] theorem State.endBoot_fb : (s.endBoot).fb = s.fb := rfl
@[simp] theorem State.endBoot_key : (s.endBoot).key = s.key := rfl
@[simp] theorem State.endBoot_mode : (s.endBoot).mode = s.mode := rfl
@[simp] theorem State.endBoot_kreg : (s.endBoot).kreg = s.kreg := rfl
@[simp] theorem State.endBoot_halt : (s.endBoot).halt = s.halt := rfl
@[simp] theorem State.endBoot_glyphRom : (s.endBoot).glyphRom = s.glyphRom := rfl
@[simp] theorem State.endBoot_draws : (s.endBoot).draws = s.draws := rfl
@[simp] theorem State.endBoot_resets : (s.endBoot).resets = s.resets := rfl
@[simp] theorem State.endBoot_boot : (s.endBoot).boot = .booted := rfl
@[simp] theorem State.endBoot_pending : (s.endBoot).pending = s.pending := rfl


/-! The registers -/

theorem State.reg_eq (x : Reg) : s.reg x = s.v[x] := rfl

@[simp] theorem State.reg_setReg_self (x : Reg) (b : Byte) : (s.setReg x b).reg x = b := by
  simp [State.reg, State.setReg]

theorem State.reg_setReg_of_ne (x y : Reg) (b : Byte) (h : y ≠ x) : (s.setReg x b).reg y = s.reg y := by
  have hne : (x : Nat) ≠ (y : Nat) := fun e => h (Fin.ext e.symm)
  simp [State.reg, State.setReg, hne]

theorem State.reg_setReg (x y : Reg) (b : Byte) : (s.setReg x b).reg y = if y = x then b else s.reg y := by
  split
  · subst_vars; simp
  · rename_i h; exact s.reg_setReg_of_ne x y b h

@[simp] theorem State.reg_setPc (y : Reg) (a : Word) : (s.setPc a).reg y = s.reg y := rfl
@[simp] theorem State.reg_setI (y : Reg) (a : Word) : (s.setI a).reg y = s.reg y := rfl
@[simp] theorem State.reg_setDt (y : Reg) (b : Byte) : (s.setDt b).reg y = s.reg y := rfl
@[simp] theorem State.reg_setSt (y : Reg) (b : Byte) : (s.setSt b).reg y = s.reg y := rfl
@[simp] theorem State.reg_setFb (y : Reg) (f : Frame) : (s.setFb f).reg y = s.reg y := rfl
@[simp] theorem State.reg_await (y : Reg) (x : Reg) : (s.await x).reg y = s.reg y := rfl
@[simp] theorem State.reg_drawn (y : Reg) : (s.drawn).reg y = s.reg y := rfl
@[simp] theorem State.reg_writeByte (y : Reg) (a : Nat) (b : Byte) : (s.writeByte a b).reg y = s.reg y := rfl
@[simp] theorem State.reg_endBoot (y : Reg) : (s.endBoot).reg y = s.reg y := rfl

/-! One byte of memory -/

@[simp] theorem State.readByte_setReg (k : Nat) (x : Reg) (b : Byte) : (s.setReg x b).readByte k = s.readByte k := rfl
@[simp] theorem State.readByte_setPc (k : Nat) (a : Word) : (s.setPc a).readByte k = s.readByte k := rfl
@[simp] theorem State.readByte_setI (k : Nat) (a : Word) : (s.setI a).readByte k = s.readByte k := rfl
@[simp] theorem State.readByte_setDt (k : Nat) (b : Byte) : (s.setDt b).readByte k = s.readByte k := rfl
@[simp] theorem State.readByte_setSt (k : Nat) (b : Byte) : (s.setSt b).readByte k = s.readByte k := rfl
@[simp] theorem State.readByte_setFb (k : Nat) (f : Frame) : (s.setFb f).readByte k = s.readByte k := rfl
@[simp] theorem State.readByte_await (k : Nat) (x : Reg) : (s.await x).readByte k = s.readByte k := rfl
@[simp] theorem State.readByte_drawn (k : Nat) : (s.drawn).readByte k = s.readByte k := rfl
@[simp] theorem State.readByte_setRegs (k : Nat) (bs : List Byte) : (s.setRegs bs).readByte k = s.readByte k := rfl
@[simp] theorem State.readByte_endBoot (k : Nat) : (s.endBoot).readByte k = s.readByte k := rfl

/-! `advance` moves `PC` to `npc` -/

@[simp] theorem State.advance_eq : s.advance = s.setPc (s.pc + 2) := rfl

end Sys2Proof.Machine
end

