-- ==== Sys2Proof/Laws/Memory.lean ====
section
/-! SUPPORT. The laws of memory: read after write, and that every memory operation keeps the canonical form. -/

namespace Sys2Proof.Machine

theorem Memory.lookup_insert (m : Memory) (k : Nat) (v : Byte) (j : Nat) :
    Memory.lookup (Memory.insert m k v) j = if j = k then some v else Memory.lookup m j := by
  induction m with
  | nil => simp [Memory.insert, Memory.lookup]
  | cons c m ih =>
    obtain ⟨a, b⟩ := c
    simp only [Memory.insert]
    by_cases h1 : k < a
    · simp [h1, Memory.lookup]
    · by_cases h2 : k = a
      · subst h2
        by_cases h3 : j = k <;> simp [Memory.lookup, h3]
      · simp only [h1, h2, if_false, Memory.lookup, ih]
        by_cases h3 : j = a
        · have : j ≠ k := fun e => h2 (e.symm.trans h3)
          simp [h3, Ne.symm h2]
        · simp [h3]

theorem Memory.wfFrom_mono {lo hi : Nat} (h : hi ≤ lo) (m : Memory) :
    Memory.wfFrom lo m = true → Memory.wfFrom hi m = true := by
  cases m with
  | nil => intro _; rfl
  | cons c m =>
    simp only [Memory.wfFrom, Bool.and_eq_true, decide_eq_true_eq]
    exact fun ⟨⟨h1, h2⟩, h3⟩ => ⟨⟨by omega, h2⟩, h3⟩

theorem Memory.wfFrom_insert (m : Memory) (k : Nat) (v : Byte) (lo : Nat) (h : Memory.wfFrom lo m = true)
    (hlo : lo ≤ k) (hk : k ≤ 0xFFF) : Memory.wfFrom lo (Memory.insert m k v) = true := by
  induction m generalizing lo with
  | nil => simp [Memory.insert, Memory.wfFrom, hlo, hk]
  | cons c m ih =>
    obtain ⟨a, b⟩ := c
    simp only [Memory.wfFrom, Bool.and_eq_true, decide_eq_true_eq] at h
    obtain ⟨⟨h1, h2⟩, h3⟩ := h
    simp only [Memory.insert]
    split
    · rename_i hka
      simp only [Memory.wfFrom, Bool.and_eq_true, decide_eq_true_eq]
      exact ⟨⟨hlo, hk⟩, ⟨by omega, h2⟩, h3⟩
    · split
      · rename_i _ hka
        subst hka
        simp only [Memory.wfFrom, Bool.and_eq_true, decide_eq_true_eq]
        exact ⟨⟨h1, h2⟩, h3⟩
      · simp only [Memory.wfFrom, Bool.and_eq_true, decide_eq_true_eq]
        exact ⟨⟨h1, h2⟩, ih (a + 1) h3 (by omega)⟩

theorem Memory.lookup_eq_none_of_lt (m : Memory) (lo k : Nat) (h : Memory.wfFrom lo m = true) (hk : k < lo) :
    Memory.lookup m k = none := by
  induction m generalizing lo with
  | nil => rfl
  | cons c m ih =>
    obtain ⟨a, b⟩ := c
    simp only [Memory.wfFrom, Bool.and_eq_true, decide_eq_true_eq] at h
    have : k ≠ a := by omega
    simp only [Memory.lookup, this, if_false]
    exact ih (a + 1) h.2 (by omega)

/-- A write of a listed-window address keeps the canonical form. -/
theorem State.wf_writeByte (s : State) (a : Nat) (b : Byte) (h : Memory.wf s.mem = true) (h1 : 0x50 ≤ a)
    (h2 : a ≤ 0xFFF) : Memory.wf (s.writeByte a b).mem = true :=
  Memory.wfFrom_insert s.mem a b 0x50 h h1 h2

/-- Writing a block inside the window keeps the canonical form. -/
theorem State.wf_writeBytes (s : State) (a : Nat) (bs : List Byte) (h : Memory.wf s.mem = true) (h1 : 0x50 ≤ a)
    (h2 : a + bs.length ≤ 0x1000) : Memory.wf (s.writeBytes a bs).mem = true := by
  induction bs generalizing s a with
  | nil => exact h
  | cons b bs ih =>
    simp only [List.length_cons] at h2
    exact ih _ _ (s.wf_writeByte a b h h1 (by omega)) (by omega) (by omega)

theorem State.readByte_writeByte (s : State) (a : Nat) (b : Byte) (k : Nat) :
    (s.writeByte a b).readByte k = if k = a then b else s.readByte k := by
  by_cases h : k = a <;> simp [State.readByte, Memory.lookup_insert, h]

/-- Reading one byte after writing a block: the block's byte inside it, the byte before it outside. -/
theorem State.readByte_writeBytes (s : State) (a : Nat) (bs : List Byte) (k : Nat) :
    (s.writeBytes a bs).readByte k = if a ≤ k then bs[k - a]?.getD (s.readByte k) else s.readByte k := by
  induction bs generalizing s a with
  | nil => simp [State.writeBytes]
  | cons b bs ih =>
    simp only [State.writeBytes, ih, State.readByte_writeByte]
    by_cases h1 : a + 1 ≤ k
    · obtain ⟨d, rfl⟩ := Nat.exists_eq_add_of_le h1
      have e1 : a + 1 + d - a = d + 1 := by omega
      have e2 : a + 1 + d ≠ a := by omega
      simp [e1, e2, show a ≤ a + 1 + d by omega]
    · by_cases h2 : k = a
      · subst h2; simp
      · simp [h1, h2, show ¬ a ≤ k by omega]

/-- The bytes a block of writes leaves are a function of the bytes before it. -/
theorem State.writeBytes_mem_congr {s t : State} (a : Nat) (bs : List Byte) (h : s.mem = t.mem) :
    (s.writeBytes a bs).mem = (t.writeBytes a bs).mem := by
  induction bs generalizing s t a with
  | nil => exact h
  | cons b bs ih => exact ih (a + 1) (congrArg (Memory.insert · a b) h)

/-- A block write changes memory only. -/
theorem State.writeBytes_frame (s : State) (a : Nat) (bs : List Byte) :
    s.writeBytes a bs = { s with mem := (s.writeBytes a bs).mem } := by
  induction bs generalizing s a with
  | nil => rfl
  | cons b bs ih => exact (ih (s.writeByte a b) (a + 1)).trans rfl

/-- In canonical form the glyph region reads as `GLYPH_ROM` (R76). -/
theorem State.readByte_glyph (s : State) (h : Memory.wf s.mem = true) (a : Nat) (ha : a < 80) :
    s.readByte a = s.glyphRom[a] := by
  simp only [State.readByte, Memory.lookup_eq_none_of_lt s.mem 0x50 a h ha, unlistedByte, dif_pos ha]

theorem State.readByte_congr {s t : State} (hm : t.mem = s.mem) (hr : t.resets = s.resets)
    (hg : t.glyphRom = s.glyphRom) (k : Nat) : t.readByte k = s.readByte k := by
  simp only [State.readByte, hm, hr, hg]

theorem State.fetchWord_congr {s t : State} (hm : t.mem = s.mem) (hr : t.resets = s.resets)
    (hg : t.glyphRom = s.glyphRom) (hp : t.pc = s.pc) : t.fetchWord = s.fetchWord := by
  simp only [State.fetchWord, State.readByte_congr hm hr hg, hp]

end Sys2Proof.Machine
end

