-- ==== Sys2Proof/Laws/Ops.lean ====
section
/-! SUPPORT. One law for each shared operation, saying everything it can do. -/

namespace Sys2Proof.Machine

theorem raiseFatal_eq (r : Reason) (w : Word) (ea : Nat) (s : State) :
    raiseFatal r w ea s = .next { s with halt := some ⟨r, w, s.pc, BitVec.ofNat 17 ea⟩ } := rfl

theorem skipIf_eq (b : Bool) (s : State) : skipIf b s = .next (s.setPc (if b then s.pc + 4 else s.pc + 2)) := rfl

/-! The stack -/

theorem State.push_of_lt (s : State) (a : Word) (h : s.sp.val < 16) :
    s.push a = some { s with stack := s.stack.set s.sp.val a, sp := ⟨s.sp.val + 1, by omega⟩ } := by
  simp [State.push, h]

theorem State.push_of_full (s : State) (a : Word) (h : s.sp = 16) : s.push a = none := by
  simp [State.push, h]

theorem State.pop_of_pos (s : State) (h : 0 < s.sp.val) :
    s.pop = some (s.stack[s.sp.val - 1], { s with sp := ⟨s.sp.val - 1, by omega⟩ }) := by
  simp [State.pop, h]

theorem State.pop_of_empty (s : State) (h : s.sp = 0) : s.pop = none := by
  simp [State.pop, h]

/-! Runs of addresses -/

theorem mem_span (base n a : Nat) : a ∈ span base n ↔ base ≤ a ∧ a < base + n := by
  simp only [span, List.mem_map, List.mem_range]
  constructor
  · rintro ⟨j, hj, rfl⟩; omega
  · rintro ⟨h1, h2⟩; exact ⟨a - base, by omega, by omega⟩

theorem span_succ (base n : Nat) : span base (n + 1) = base :: span (base + 1) n := by
  simp only [span, List.range_succ_eq_map, List.map_cons, List.map_map]
  refine congrArg₂ List.cons (by omega) (List.map_congr_left fun j _ => ?_)
  simp only [Function.comp_apply]; omega

theorem find_span_of_all_good (bad : Nat → Bool) (base n : Nat) (h : ∀ a, base ≤ a → a < base + n → bad a = false) :
    (span base n).find? bad = none := by
  rw [List.find?_eq_none]
  intro a ha
  rw [mem_span] at ha
  simp [h a ha.1 ha.2]

/-- The first bad address found in a run is the least bad one. -/
theorem find_span_of_first (bad : Nat → Bool) (base n ea : Nat) (h1 : base ≤ ea) (h2 : ea < base + n)
    (hbad : bad ea = true) (hgood : ∀ a, base ≤ a → a < ea → bad a = false) :
    (span base n).find? bad = some ea := by
  induction n generalizing base with
  | zero => omega
  | succ n ih =>
    rw [span_succ, List.find?_cons]
    by_cases h : base = ea
    · subst h; simp [hbad]
    · rw [hgood base (Nat.le_refl _) (by omega)]
      exact ih (base + 1) (by omega) (by omega) fun a ha hb => hgood a (by omega) hb

theorem find_badRead (base n : Nat) (h : ReadsInRange base n) : (span base n).find? badRead = none :=
  find_span_of_all_good _ _ _ fun a h1 h2 => by
    rcases h with h | h <;> simp only [badRead, decide_eq_false_iff_not] <;> omega

theorem find_badRead_first (base n : Nat) (h : ¬ ReadsInRange base n) :
    (span base n).find? badRead = some (firstBadRead base) := by
  simp only [ReadsInRange, not_or] at h
  apply find_span_of_first
  · simp only [firstBadRead]; omega
  · simp only [firstBadRead]; omega
  · exact decide_eq_true (by simp only [firstBadRead]; omega)
  · intro a h1 h2
    simp only [badRead, firstBadRead, decide_eq_false_iff_not] at h2 ⊢; omega

theorem find_badWrite (base n : Nat) (h : WritesInRange base n) : (span base n).find? badWrite = none :=
  find_span_of_all_good _ _ _ fun a h1 h2 => by
    simp only [WritesInRange] at h
    simp only [badWrite, Bool.or_eq_false_iff, decide_eq_false_iff_not]; omega

theorem find_badWrite_first (base n : Nat) (hn : 0 < n) (h : ¬ WritesInRange base n) :
    (span base n).find? badWrite = some (firstBadWrite base) := by
  simp only [WritesInRange] at h
  have hval : firstBadWrite base = if base < 0x50 then base else max base 0x1000 := rfl
  apply find_span_of_first
  · rw [hval]; split <;> omega
  · rw [hval]; split <;> omega
  · rw [hval]; simp only [badWrite, Bool.or_eq_true, decide_eq_true_eq]; split <;> omega
  · intro a h1 h2
    rw [hval] at h2
    simp only [badWrite, Bool.or_eq_false_iff, decide_eq_false_iff_not]
    split at h2 <;> omega

/-! Memory accesses -/

theorem State.memRead_ok (s : State) (base n : Nat) (h : ReadsInRange base n) :
    s.memRead base n = .ok ((span base n).map s.readByte) := by
  simp only [State.memRead, find_badRead base n h]

theorem State.memRead_error (s : State) (base n : Nat) (h : ¬ ReadsInRange base n) :
    s.memRead base n = .error (firstBadRead base) := by
  simp only [State.memRead, find_badRead_first base n h]

theorem State.memWrite_ok (s : State) (base : Nat) (bs : List Byte) (h : WritesInRange base bs.length) :
    s.memWrite base bs = .ok (s.writeBytes base bs) := by
  simp only [State.memWrite, find_badWrite base _ h]

theorem State.memWrite_error (s : State) (base : Nat) (bs : List Byte) (hn : bs ≠ [])
    (h : ¬ WritesInRange base bs.length) : s.memWrite base bs = .error (firstBadWrite base) := by
  simp only [State.memWrite, find_badWrite_first base _ (List.length_pos_iff.mpr hn) h]

theorem getElem_span_map (s : State) (base n j : Nat) (h : j < n) :
    ((span base n).map s.readByte)[j]? = some (s.readByte (base + j)) := by
  simp [span, h]

/-- A store from `I` on, where every address is writable. -/
theorem storeAtI_ok (w : Word) (bs : List Byte) (s : State) (h : WritesInRange s.i.toNat bs.length) :
    storeAtI w bs s = .next (s.writeBytes s.i.toNat bs).advance := by
  simp only [storeAtI, s.memWrite_ok _ _ h]

/-- A store from `I` on, where some address is not. -/
theorem storeAtI_error (w : Word) (bs : List Byte) (s : State) (hn : bs ≠ [])
    (h : ¬ WritesInRange s.i.toNat bs.length) :
    storeAtI w bs s = raiseFatal .outOfRangeAccess w (firstBadWrite s.i.toNat) s := by
  simp only [storeAtI, s.memWrite_error _ _ hn h, raiseOutOfRange]

/-! Register blocks -/

/-- A conditional skip continues at the next instruction or at the one after it. -/
theorem State.skipTarget_cases (s : State) (taken : Bool) :
    s.skipTarget taken = s.pc + 2 ∨ s.skipTarget taken = s.pc + 4 := by
  cases taken
  · exact .inl rfl
  · exact .inr rfl

theorem State.length_regsThrough (s : State) (x : Reg) : (s.regsThrough x).length = x.val + 1 := by
  simp [State.regsThrough]

theorem State.getElem_regsThrough (s : State) (x z : Reg) (h : z ≤ x) :
    (s.regsThrough x)[z.val]? = some (s.reg z) := by
  have : z.val ≤ x.val := h
  simp [State.regsThrough, State.reg, Nat.lt_succ_of_le this]

theorem getElem_loadRegs (v : Vector Byte 16) (k : Nat) (bs : List Byte) (z : Reg) :
    (loadRegs v k bs)[z] = if k ≤ z.val then bs[z.val - k]?.getD v[z] else v[z] := by
  induction bs generalizing v k with
  | nil => simp [loadRegs]
  | cons b bs ih =>
    rw [loadRegs, ih]
    by_cases h1 : k + 1 ≤ z.val
    · have e1 : z.val - k = (z.val - (k + 1)) + 1 := by omega
      have e2 : k ≠ z.val := by omega
      have e3 : k ≤ z.val := by omega
      simp [h1, e1, e2, e3, Vector.getElem_setIfInBounds_ne]
    · by_cases h2 : k = z.val
      · subst h2; simp
      · simp [h1, show ¬ k ≤ z.val by omega, Vector.getElem_setIfInBounds_ne, h2]

theorem State.reg_setRegs (s : State) (bs : List Byte) (z : Reg) :
    (s.setRegs bs).reg z = bs[z.val]?.getD (s.reg z) := by
  simp [State.reg, State.setRegs, getElem_loadRegs, -Fin.getElem_fin]

end Sys2Proof.Machine
end

