-- ==== Sys2Proof/Laws/Draw.lean ====
section
/-! SUPPORT. What a sprite bit, a sprite byte and a run of sprite bytes do to each pixel. -/

namespace Sys2Proof.Machine

/-- Toggling a pixel changes that pixel and no other. -/
theorem pixel_togglePixel (f : Frame) (r r' : Fin 32) (c c' : Fin 64) :
    pixel (togglePixel f r c) r' c' = (pixel f r' c' ^^ decide (r' = r ∧ c' = c)) := by
  have hb : ∀ row : BitVec 64, (row ^^^ BitVec.twoPow 64 (63 - c.val)).getMsbD c'.val =
      (row.getMsbD c'.val ^^ decide (c' = c)) := by
    intro row
    rw [BitVec.getMsbD_xor]
    congr 1
    rw [BitVec.getMsbD_eq_getLsbD, BitVec.getLsbD_twoPow]
    have h1 := c.isLt
    have h2 := c'.isLt
    rw [Bool.eq_iff_iff]
    simp only [Bool.and_eq_true, decide_eq_true_eq, Fin.ext_iff]
    omega
  by_cases hr : r' = r
  · subst hr
    simp [pixel, togglePixel, hb]
  · have hne : (r : Nat) ≠ (r' : Nat) := fun e => hr (Fin.ext e.symm)
    simp [pixel, togglePixel, hr, hne]

/-- A set sprite bit toggles its pixel, a clear one changes nothing. -/
theorem pixel_drawBit (bit : Bool) (r r' : Fin 32) (c c' : Fin 64) (d : Drawing) :
    pixel (drawBit bit r c d).frame r' c' = (pixel d.frame r' c' ^^ (bit && decide (r' = r ∧ c' = c))) := by
  cases bit <;> simp [drawBit, pixel_togglePixel]

/-- A collision is a set sprite bit over a pixel that was on. -/
theorem collision_drawBit (bit : Bool) (r : Fin 32) (c : Fin 64) (d : Drawing) :
    (drawBit bit r c d).collision = (d.collision || (bit && pixel d.frame r c)) := by
  cases bit <;> simp [drawBit]

end Sys2Proof.Machine
end

