-- ==== Sys2Proof/Laws/PerInstr.lean ====
section
/-! SUPPORT. Facts about every instruction as syntax, one lemma for each constructor. -/

namespace Sys2Proof.Laws

/-- The word of the instruction selects exactly one row of the opcode map (R101, R116). -/
def EncodeSelectsOneRow.Statement (i : Instr) : Prop :=
  (opcodeMap.filter fun row => row.selects (encode i)).length = 1

/-- A word of format A with this opcode selects one row. -/
theorem selectsOne_formatA (op : BitVec 4) (h : op = 1 ∨ op = 2 ∨ op = 0xA ∨ op = 0xB) (nnn : BitVec 12) :
    (opcodeMap.filter fun row => row.selects (formatA op nnn)).length = 1 := by
  rcases h with rfl | rfl | rfl | rfl <;>
    simp [opcodeMap, selects_F000, selects_F00F, selects_F0FF, selects_FFFF]

/-- A word of format XK with this opcode selects one row. -/
theorem selectsOne_formatXK (op : BitVec 4) (h : op = 3 ∨ op = 4 ∨ op = 6 ∨ op = 7 ∨ op = 0xC) (x : Reg) (kk : Byte) :
    (opcodeMap.filter fun row => row.selects (formatXK op x kk)).length = 1 := by
  rcases h with rfl | rfl | rfl | rfl | rfl <;>
    simp [opcodeMap, selects_F000, selects_F00F, selects_F0FF, selects_FFFF]

/-- A word of format X, whose low byte is fixed, selects one row. -/
theorem selectsOne_formatX (op : BitVec 4) (kk : Byte)
    (h : op = 0xE ∧ kk ∈ [0x9E, 0xA1] ∨ op = 0xF ∧ kk ∈ [0x07, 0x0A, 0x15, 0x18, 0x1E, 0x29, 0x33, 0x55, 0x65])
    (x : Reg) : (opcodeMap.filter fun row => row.selects (formatXK op x kk)).length = 1 := by
  obtain ⟨rfl, hk⟩ | ⟨rfl, hk⟩ := h <;> revert kk <;>
    simp [opcodeMap, selects_F000, selects_F00F, selects_F0FF, selects_FFFF]

/-- A word of format XY, whose low nibble is fixed, selects one row. -/
theorem selectsOne_formatXY (op n : BitVec 4)
    (h : (op = 0x5 ∨ op = 0x9) ∧ n = 0x0 ∨ op = 0x8 ∧ n ∈ [0x0, 0x1, 0x2, 0x3, 0x4, 0x5, 0x6, 0x7, 0xE]) (x y : Reg) :
    (opcodeMap.filter fun row => row.selects (formatXYN op x y n)).length = 1 := by
  obtain ⟨rfl | rfl, rfl⟩ | ⟨rfl, hn⟩ := h
  · simp [opcodeMap, selects_F000, selects_F00F, selects_F0FF, selects_FFFF]
  · simp [opcodeMap, selects_F000, selects_F00F, selects_F0FF, selects_FFFF]
  · revert n
    simp [opcodeMap, selects_F000, selects_F00F, selects_F0FF, selects_FFFF]

theorem EncodeSelectsOneRow.cls : EncodeSelectsOneRow.Statement .cls :=
  show (opcodeMap.filter fun row => row.selects (encode .cls)).length = 1 by decide

theorem EncodeSelectsOneRow.ret : EncodeSelectsOneRow.Statement .ret :=
  show (opcodeMap.filter fun row => row.selects (encode .ret)).length = 1 by decide

theorem EncodeSelectsOneRow.jp (nnn : BitVec 12) : EncodeSelectsOneRow.Statement (.jp nnn) :=
  selectsOne_formatA _ (by decide) nnn

theorem EncodeSelectsOneRow.call (nnn : BitVec 12) : EncodeSelectsOneRow.Statement (.call nnn) :=
  selectsOne_formatA _ (by decide) nnn

theorem EncodeSelectsOneRow.seImm (x : Reg) (kk : Byte) : EncodeSelectsOneRow.Statement (.seImm x kk) :=
  selectsOne_formatXK _ (by decide) x kk

theorem EncodeSelectsOneRow.sneImm (x : Reg) (kk : Byte) : EncodeSelectsOneRow.Statement (.sneImm x kk) :=
  selectsOne_formatXK _ (by decide) x kk

theorem EncodeSelectsOneRow.seReg (x y : Reg) : EncodeSelectsOneRow.Statement (.seReg x y) :=
  selectsOne_formatXY _ _ (by decide) x y

theorem EncodeSelectsOneRow.ldImm (x : Reg) (kk : Byte) : EncodeSelectsOneRow.Statement (.ldImm x kk) :=
  selectsOne_formatXK _ (by decide) x kk

theorem EncodeSelectsOneRow.addImm (x : Reg) (kk : Byte) : EncodeSelectsOneRow.Statement (.addImm x kk) :=
  selectsOne_formatXK _ (by decide) x kk

theorem EncodeSelectsOneRow.ldReg (x y : Reg) : EncodeSelectsOneRow.Statement (.ldReg x y) :=
  selectsOne_formatXY _ _ (by decide) x y

theorem EncodeSelectsOneRow.orReg (x y : Reg) : EncodeSelectsOneRow.Statement (.orReg x y) :=
  selectsOne_formatXY _ _ (by decide) x y

theorem EncodeSelectsOneRow.andReg (x y : Reg) : EncodeSelectsOneRow.Statement (.andReg x y) :=
  selectsOne_formatXY _ _ (by decide) x y

theorem EncodeSelectsOneRow.xorReg (x y : Reg) : EncodeSelectsOneRow.Statement (.xorReg x y) :=
  selectsOne_formatXY _ _ (by decide) x y

theorem EncodeSelectsOneRow.addReg (x y : Reg) : EncodeSelectsOneRow.Statement (.addReg x y) :=
  selectsOne_formatXY _ _ (by decide) x y

theorem EncodeSelectsOneRow.subReg (x y : Reg) : EncodeSelectsOneRow.Statement (.subReg x y) :=
  selectsOne_formatXY _ _ (by decide) x y

theorem EncodeSelectsOneRow.shr (x y : Reg) : EncodeSelectsOneRow.Statement (.shr x y) :=
  selectsOne_formatXY _ _ (by decide) x y

theorem EncodeSelectsOneRow.subnReg (x y : Reg) : EncodeSelectsOneRow.Statement (.subnReg x y) :=
  selectsOne_formatXY _ _ (by decide) x y

theorem EncodeSelectsOneRow.shl (x y : Reg) : EncodeSelectsOneRow.Statement (.shl x y) :=
  selectsOne_formatXY _ _ (by decide) x y

theorem EncodeSelectsOneRow.sneReg (x y : Reg) : EncodeSelectsOneRow.Statement (.sneReg x y) :=
  selectsOne_formatXY _ _ (by decide) x y

theorem EncodeSelectsOneRow.ldI (nnn : BitVec 12) : EncodeSelectsOneRow.Statement (.ldI nnn) :=
  selectsOne_formatA _ (by decide) nnn

theorem EncodeSelectsOneRow.jpV0 (nnn : BitVec 12) : EncodeSelectsOneRow.Statement (.jpV0 nnn) :=
  selectsOne_formatA _ (by decide) nnn

theorem EncodeSelectsOneRow.rnd (x : Reg) (kk : Byte) : EncodeSelectsOneRow.Statement (.rnd x kk) :=
  selectsOne_formatXK _ (by decide) x kk

theorem EncodeSelectsOneRow.drw (x y : Reg) (n : BitVec 4) : EncodeSelectsOneRow.Statement (.drw x y n) :=
  by
  simp [EncodeSelectsOneRow.Statement, encode, opcodeMap, selects_F000, selects_F00F, selects_F0FF,
    selects_FFFF]

theorem EncodeSelectsOneRow.skp (x : Reg) : EncodeSelectsOneRow.Statement (.skp x) :=
  selectsOne_formatX _ _ (by decide) x

theorem EncodeSelectsOneRow.sknp (x : Reg) : EncodeSelectsOneRow.Statement (.sknp x) :=
  selectsOne_formatX _ _ (by decide) x

theorem EncodeSelectsOneRow.ldVxDt (x : Reg) : EncodeSelectsOneRow.Statement (.ldVxDt x) :=
  selectsOne_formatX _ _ (by decide) x

theorem EncodeSelectsOneRow.ldVxK (x : Reg) : EncodeSelectsOneRow.Statement (.ldVxK x) :=
  selectsOne_formatX _ _ (by decide) x

theorem EncodeSelectsOneRow.ldDtVx (x : Reg) : EncodeSelectsOneRow.Statement (.ldDtVx x) :=
  selectsOne_formatX _ _ (by decide) x

theorem EncodeSelectsOneRow.ldStVx (x : Reg) : EncodeSelectsOneRow.Statement (.ldStVx x) :=
  selectsOne_formatX _ _ (by decide) x

theorem EncodeSelectsOneRow.addIVx (x : Reg) : EncodeSelectsOneRow.Statement (.addIVx x) :=
  selectsOne_formatX _ _ (by decide) x

theorem EncodeSelectsOneRow.ldFVx (x : Reg) : EncodeSelectsOneRow.Statement (.ldFVx x) :=
  selectsOne_formatX _ _ (by decide) x

theorem EncodeSelectsOneRow.ldBVx (x : Reg) : EncodeSelectsOneRow.Statement (.ldBVx x) :=
  selectsOne_formatX _ _ (by decide) x

theorem EncodeSelectsOneRow.ldMemVx (x : Reg) : EncodeSelectsOneRow.Statement (.ldMemVx x) :=
  selectsOne_formatX _ _ (by decide) x

theorem EncodeSelectsOneRow.ldVxMem (x : Reg) : EncodeSelectsOneRow.Statement (.ldVxMem x) :=
  selectsOne_formatX _ _ (by decide) x

end Sys2Proof.Laws
end

