-- ==== Sys2Proof/Laws/Step.lean ====
section
/-! SUPPORT. What a step can do, said once: by the event delivered, then by the sequencer, then by the instruction. -/

namespace Sys2Proof.Machine

/-- The bytes at `PC` decode as the word at `PC` does. -/
theorem State.decode_fetchBytes (s : State) : decode s.fetchBytes = (decodeWord s.fetchWord).map (·, []) :=
  decode_cons _ _ _

/-- A step is the Step event, or the delivery of the first scheduled event. -/
theorem step_cases {s t : State} (h : step s = .next t) :
    (s.pending = [] ∧ stepEvent s = .next t) ∨
    ∃ e rest u, s.pending = e :: rest ∧ hostEvent e s = .next u ∧ t = { u with pending := rest } := by
  unfold step nextEvent at h
  split at h
  · exact .inl ⟨‹_›, h⟩
  · rename_i e rest hp
    refine .inr ⟨e, rest, ?_⟩
    cases hu : hostEvent e s with
    | next u =>
      rw [hu] at h
      exact ⟨u, hp, rfl, (Host.Outcome.next.inj h).symm⟩
    | fault f => rw [hu] at h; cases h
    | refused r => rw [hu] at h; cases h

/-- A Step event runs an instruction, records a fatal condition at fetch or decode, or finds the machine halted or
blocked. -/
theorem stepEvent_cases {s t : State} (h : stepEvent s = .next t) :
    ((s.halt ≠ none ∨ s.mode = .blockedOnKey) ∧ t = s) ∨
    (s.halt = none ∧ s.mode = .running ∧
      ((fetchable s.pc = false ∧
          raiseFatal .outOfRangeAccess 0x0000 s.pc.toNat s.endBoot = .next t) ∨
       (fetchable s.pc = true ∧ decodeWord s.fetchWord = .error (.illegal s.fetchWord) ∧
          raiseFatal .decodeError s.fetchWord 0 s.endBoot = .next t) ∨
       (fetchable s.pc = true ∧ ∃ i, decodeWord s.fetchWord = .ok i ∧ exec i s.endBoot = .next t))) := by
  unfold stepEvent at h
  split at h
  · rename_i hh hm
    refine .inr ⟨hh, hm, ?_⟩
    unfold runInstr at h
    split at h
    · rename_i hf
      rw [State.decode_fetchBytes] at h
      cases hd : decodeWord s.fetchWord with
      | ok i =>
        rw [show s.endBoot.fetchWord = s.fetchWord from rfl, hd] at h
        exact .inr (.inr ⟨hf, i, rfl, h⟩)
      | error r =>
        rw [show s.endBoot.fetchWord = s.fetchWord from rfl, hd] at h
        obtain ⟨-, rfl⟩ := decodeWord_eq_error_iff.mp hd
        exact .inr (.inl ⟨hf, rfl, h⟩)
    · rename_i hf
      exact .inl ⟨by simpa using hf, h⟩
  · rename_i hne
    refine .inl ⟨?_, (Host.Outcome.next.inj h).symm⟩
    cases hh : s.halt with
    | some r => simp
    | none =>
      cases hm : s.mode with
      | running => exact (hne hh hm).elim
      | blockedOnKey => simp

/-- An instruction leaves HALT alone, or records its own fatal condition, whose cause holds, and changes nothing else. -/
theorem exec_halt_cases {i : Instr} {s t : State} (h : exec i s = .next t) :
    t.halt = s.halt ∨
    ∃ r ea, t = { s with halt := some ⟨r, encode i, s.pc, BitVec.ofNat 17 ea⟩ } ∧
      ((r = .stackOverflow ∧ ea = 0 ∧ s.sp = 16 ∧ ∃ nnn, i = .call nnn) ∨
       (r = .stackUnderflow ∧ ea = 0 ∧ s.sp = 0 ∧ i = .ret) ∨
       (r = .outOfRangeAccess ∧ OutOfRangeCause i s ea)) := by
  cases i with
  | ret =>
    change execRet s = _ at h
    unfold execRet at h
    by_cases h0 : s.sp = 0
    · rw [s.pop_of_empty h0] at h
      exact .inr ⟨_, 0, (Host.Outcome.next.inj h).symm, .inr (.inl ⟨rfl, rfl, h0, rfl⟩)⟩
    · rw [s.pop_of_pos (Nat.pos_of_ne_zero fun e => h0 (Fin.ext e))] at h
      cases h; exact .inl rfl
  | call nnn =>
    change execCall nnn s = _ at h
    unfold execCall at h
    by_cases h0 : s.sp = 16
    · rw [s.push_of_full _ h0] at h
      exact .inr ⟨_, 0, (Host.Outcome.next.inj h).symm, .inl ⟨rfl, rfl, h0, nnn, rfl⟩⟩
    · have hlt : s.sp.val < 16 := by
        have := s.sp.isLt; have : s.sp.val ≠ 16 := fun e => h0 (Fin.ext e); omega
      rw [s.push_of_lt _ hlt] at h
      cases h; exact .inl rfl
  | drw x y n =>
    change execDrw x y n s = _ at h
    unfold execDrw at h
    by_cases h0 : ReadsInRange s.i.toNat n.toNat
    · rw [s.memRead_ok _ _ h0] at h
      cases h; exact .inl rfl
    · rw [s.memRead_error _ _ h0] at h
      exact .inr ⟨_, _, (Host.Outcome.next.inj h).symm, .inr (.inr ⟨rfl, h0, rfl⟩)⟩
  | ldVxMem x =>
    change execLdVxMem x s = _ at h
    unfold execLdVxMem at h
    by_cases h0 : ReadsInRange s.i.toNat (x.val + 1)
    · rw [s.memRead_ok _ _ h0] at h
      cases h; exact .inl rfl
    · rw [s.memRead_error _ _ h0] at h
      exact .inr ⟨_, _, (Host.Outcome.next.inj h).symm, .inr (.inr ⟨rfl, h0, rfl⟩)⟩
  | ldBVx x =>
    change storeAtI _ _ s = _ at h
    by_cases h0 : WritesInRange s.i.toNat 3
    · rw [storeAtI_ok _ _ _ h0, State.writeBytes_frame] at h
      cases h; exact .inl rfl
    · rw [storeAtI_error _ _ _ (by simp [bcdDigits]) h0] at h
      exact .inr ⟨_, _, (Host.Outcome.next.inj h).symm, .inr (.inr ⟨rfl, h0, rfl⟩)⟩
  | ldMemVx x =>
    change storeAtI _ _ s = _ at h
    have hl := s.length_regsThrough x
    by_cases h0 : WritesInRange s.i.toNat (x.val + 1)
    · rw [storeAtI_ok _ _ _ (hl ▸ h0), State.writeBytes_frame] at h
      cases h; exact .inl rfl
    · rw [storeAtI_error _ _ _ (fun e => by simp [e] at hl) (hl ▸ h0)] at h
      exact .inr ⟨_, _, (Host.Outcome.next.inj h).symm, .inr (.inr ⟨rfl, h0, rfl⟩)⟩
  | _ => cases h; exact .inl rfl

/-- A running machine that can fetch a legal word runs its instruction. -/
theorem stepEvent_of_ok {s : State} {i : Instr} (hh : s.halt = none) (hm : s.mode = .running)
    (hf : fetchable s.pc = true) (hd : decodeWord s.fetchWord = .ok i) : stepEvent s = exec i s.endBoot := by
  have hd' : decodeWord s.endBoot.fetchWord = .ok i := hd
  unfold stepEvent
  simp only [hh, hm]
  unfold runInstr
  rw [State.decode_fetchBytes, hd', if_pos (show fetchable s.endBoot.pc = true from hf)]
  rfl

theorem fetchable_iff (pc : Word) :
    fetchable pc = true ↔ pc.toNat % 2 = 0 ∧ 0x200 ≤ pc.toNat ∧ pc.toNat ≤ 0xFFE := by
  simp [fetchable, and_assoc]

/-- The fetched word as a number: the byte at `PC` is the more significant one. -/
theorem State.toNat_fetchWord (s : State) :
    s.fetchWord.toNat = (s.readByte s.pc.toNat).toNat * 256 + (s.readByte (s.pc.toNat + 1)).toNat := by
  unfold State.fetchWord wordOfBytes
  rw [BitVec.toNat_append, ← Nat.shiftLeft_add_eq_or_of_lt (BitVec.isLt _), Nat.shiftLeft_eq]

/-- With nothing scheduled a step is a Step event. -/
theorem step_of_nil {s : State} (h : s.pending = []) : step s = stepEvent s := by
  unfold step nextEvent; simp [h]

/-- With an event scheduled a step delivers it. -/
theorem step_of_cons {s : State} {e : Event} {es : List Event} (h : s.pending = e :: es) :
    step s = delivered es (hostEvent e s) := by
  unfold step nextEvent; simp [h]

theorem stepEvent_of_running {s : State} (hh : s.halt = none) (hm : s.mode = .running) :
    stepEvent s = runInstr s.endBoot := by
  unfold stepEvent; simp [hh, hm]

/-- A halted or blocked machine ignores a Step event. -/
theorem stepEvent_of_idle {s : State} (h : s.halt ≠ none ∨ s.mode = .blockedOnKey) : stepEvent s = .next s := by
  unfold stepEvent
  split
  · rename_i hh hm; simp [hh, hm] at h
  · rfl

/-- A running machine whose `PC` fails the fetch check records it. -/
theorem stepEvent_of_bad_pc {s : State} (hh : s.halt = none) (hm : s.mode = .running) (hf : fetchable s.pc = false) :
    stepEvent s = raiseFatal .outOfRangeAccess 0x0000 s.pc.toNat s.endBoot := by
  rw [stepEvent_of_running hh hm]
  unfold runInstr
  exact if_neg (by simpa using hf)

/-- A running machine that fetches an illegal word records it. -/
theorem stepEvent_of_illegal {s : State} {r : DecodeReject} (hh : s.halt = none) (hm : s.mode = .running)
    (hf : fetchable s.pc = true) (hd : decodeWord s.fetchWord = .error r) :
    stepEvent s = raiseFatal .decodeError s.fetchWord 0 s.endBoot := by
  have hd' : decodeWord s.endBoot.fetchWord = .error r := hd
  rw [stepEvent_of_running hh hm]
  unfold runInstr
  rw [if_pos (show fetchable s.endBoot.pc = true from hf), State.decode_fetchBytes, hd']
  rfl

/-- What a key event does. -/
theorem setKeyEvent_cases (k : Option Key) (s : State) :
    (∃ key, k = some key ∧ s.mode = .blockedOnKey ∧ s.halt = none ∧
      setKeyEvent k s = .next (({ s with key := k }.endBoot).wake key)) ∨
    ((k = none ∨ s.mode = .running ∨ s.halt ≠ none) ∧ setKeyEvent k s = .next { s with key := k }.endBoot) := by
  cases k with
  | none => exact .inr ⟨.inl rfl, by simp [setKeyEvent]⟩
  | some key =>
    cases hm : s.mode with
    | running => exact .inr ⟨.inr (.inl rfl), by simp [setKeyEvent, hm]⟩
    | blockedOnKey =>
      cases hh : s.halt with
      | none => exact .inl ⟨key, rfl, rfl, rfl, by simp [setKeyEvent, hm, hh]⟩
      | some r => exact .inr ⟨.inr (.inr (by simp)), by simp [setKeyEvent, hm, hh]⟩

/-- What a Load does: the image is written, or it is refused. -/
theorem loadEvent_cases {image : List Byte} {s t : State} (h : loadEvent image s = .next t) :
    s.boot = .awaitingLoad ∧ image.length ≤ 3584 ∧ t = (s.writeBytes progBase image).endBoot := by
  unfold loadEvent at h
  cases hb : s.boot <;> simp only [hb] at h
  case awaitingLoad =>
    split at h
    · exact ⟨rfl, by simpa [imageWellFormed] using ‹imageWellFormed image = true›, (Host.Outcome.next.inj h).symm⟩
    · cases h
  all_goals cases h

/-- What a write of the load port does: one byte is written, or it is refused. -/
theorem loadPortEvent_cases {index : BitVec 12} {data : Byte} {s t : State} (h : loadPortEvent index data s = .next t) :
    s.boot ≠ .booted ∧ index.toNat ≤ 3583 ∧
      t = { s.writeByte (progBase + index.toNat) data with boot := .loading } := by
  unfold loadPortEvent at h
  cases hb : s.boot <;> simp only [hb] at h
  case booted => cases h
  all_goals
    split at h
    · exact ⟨Boot.noConfusion, ‹_›, (Host.Outcome.next.inj h).symm⟩
    · cases h

theorem loadPortEvent_ok {index : BitVec 12} {data : Byte} {s : State} (hb : s.boot ≠ .booted)
    (hi : index.toNat ≤ 3583) :
    loadPortEvent index data s = .next { s.writeByte (progBase + index.toNat) data with boot := .loading } := by
  unfold loadPortEvent
  cases h : s.boot <;> simp_all

/-- One step that delivers a write of the load port. -/
theorem step_loadPort {s : State} {index : BitVec 12} {data : Byte} {es : List Event}
    (hp : s.pending = .loadPort index data :: es) (hb : s.boot ≠ .booted) (hi : index.toNat ≤ 3583) :
    step s = .next { s.writeByte (progBase + index.toNat) data with boot := .loading, pending := es } := by
  rw [step_of_cons hp]
  show delivered es (loadPortEvent index data s) = _
  rw [loadPortEvent_ok hb hi]
  rfl

/-- One step of a run, taken. -/
theorem run_succ {s t : State} {k : Nat} (h : step s = .next t) :
    Host.Core.run Sys2Proof.core (k + 1) s = Host.Core.run Sys2Proof.core k t := by
  have h' : Sys2Proof.core.step s = .next t := h
  simp only [Host.Core.run, h']

/-- The load port's writes of an image from index `k` on, one after the other, leave the bytes that the Load of the whole
image writes, and nothing else (R241). -/
theorem run_portWrites (s : State) (k : Nat) (b : Byte) (bs : List Byte) (es : List Event) (hb : s.boot ≠ .booted)
    (hk : k + (bs.length + 1) ≤ 3584) (hp : s.pending = portWrites k (b :: bs) ++ es) :
    Host.Core.run Sys2Proof.core (bs.length + 1) s =
      .next { s.writeBytes (progBase + k) (b :: bs) with boot := .loading, pending := es } := by
  have hi : (BitVec.ofNat 12 k).toNat = k := by rw [BitVec.toNat_ofNat]; omega
  rw [run_succ (step_loadPort hp hb (by omega)), hi]
  induction bs generalizing s k b with
  | nil => rfl
  | cons c bs ih =>
    simp only [List.length_cons] at hk
    have hi' : (BitVec.ofNat 12 (k + 1)).toNat = k + 1 := by rw [BitVec.toNat_ofNat]; omega
    rw [List.length_cons, run_succ (step_loadPort rfl Boot.noConfusion (by omega)), hi',
      ih _ (k + 1) c Boot.noConfusion (by omega) rfl hi']
    have hm := State.writeBytes_mem_congr (s := { s.writeByte (progBase + k) b with
      boot := .loading, pending := portWrites (k + 1) (c :: bs) ++ es }) (t := s.writeByte (progBase + k) b)
      (progBase + (k + 1)) (c :: bs) rfl
    rw [State.writeBytes_frame, State.writeBytes_frame s, State.writeBytes, ← Nat.add_assoc]
    exact congrArg (fun m => Host.Outcome.next { s with mem := m, boot := .loading, pending := es }) hm

end Sys2Proof.Machine
end

