-- ==== Sys2Proof/Tests/Slice0.lean ====
section
/-! SUPPORT. The model's own tests. Every expected value is from spec/95_test_vectors.md (the vector is named) or from the
pattern column of spec/30_encoding.md; `witness_` theorems show states that meet the hypotheses of the obligation named. -/

open Sys2Proof Sys2Proof.Machine

namespace Sys2Proof.Tests

/-- The reset state with some registers set. -/
def start (rs : List (Reg × Byte)) : State := rs.foldl (fun s r => s.setReg r.1 r.2) State.reset

/-- The reset state with some registers and `I` set. -/
def startI (i : Word) (rs : List (Reg × Byte)) : State := (start rs).setI i

/-- What one Step of a word, placed at `PC`, leaves, seen through `f`. -/
def after {α : Type} (s : State) (w : Nat) (f : State → α) : Option α :=
  match step (s.withFetchWord 16 w) with
  | .next t => some (f t)
  | _ => none

/-- What one event leaves, seen through `f`. -/
def event {α : Type} (s : State) (e : Event) (f : State → α) : Option α :=
  match step { s with pending := [e] } with
  | .next t => some (f t)
  | _ => none

/-- Two registers and `PC`. -/
def two (a b : Reg) (t : State) : Byte × Byte × Word := (t.reg a, t.reg b, t.pc)

/-- A halt record and `PC`. -/
def fatal (t : State) : Option HaltRecord × Word := (t.halt, t.pc)

/-- The pixels that are on. -/
def lit (t : State) : List (Nat × Nat) :=
  (List.finRange 32).flatMap fun r =>
    if t.fb[r] = 0 then [] else ((List.finRange 64).filter fun c => pixel t.fb r c).map fun c => (r.val, c.val)

/-- Whether the next step answers a next state. -/
def steps (s : State) : Bool :=
  match step s with
  | .next _ => true
  | _ => false

/-! Well-formedness: the check refuses an ill-formed term. -/

theorem test_image_too_long : imageWellFormed (List.replicate 3585 0) = false := by
  rw [imageWellFormed, List.length_replicate]; decide

theorem test_image_longest : imageWellFormed (List.replicate 3584 0) = true := by
  rw [imageWellFormed, List.length_replicate]; decide

/-! Decoding: words written bit by bit from the patterns of R106, one for each constructor at least. -/

theorem test_decode_flow :
    (decodeWord 0b0000000011101110 = .ok .ret ∧ decodeWord 0b0001101010111100 = .ok (.jp 0xABC)) ∧
    (decodeWord 0b0010001100000000 = .ok (.call 0x300) ∧ decodeWord 0b0011000100010001 = .ok (.seImm 1 0x11)) ∧
    (decodeWord 0b0100000100010010 = .ok (.sneImm 1 0x12) ∧ decodeWord 0b0101000100100000 = .ok (.seReg 1 2)) ∧
    (decodeWord 0b1001000100100000 = .ok (.sneReg 1 2) ∧ decodeWord 0b1011001100000000 = .ok (.jpV0 0x300)) ∧
    decodeWord 0b1110000110011110 = .ok (.skp 1) ∧ decodeWord 0b1110000110100001 = .ok (.sknp 1) :=
  ⟨⟨rfl, rfl⟩, ⟨rfl, rfl⟩, ⟨rfl, rfl⟩, ⟨rfl, rfl⟩, rfl, rfl⟩

theorem test_decode_arith :
    (decodeWord 0b0110001110101011 = .ok (.ldImm 3 0xAB) ∧ decodeWord 0b0111001100000010 = .ok (.addImm 3 0x02)) ∧
    (decodeWord 0b1000000100100000 = .ok (.ldReg 1 2) ∧ decodeWord 0b1000000100100001 = .ok (.orReg 1 2)) ∧
    (decodeWord 0b1000000100100010 = .ok (.andReg 1 2) ∧ decodeWord 0b1000000100100011 = .ok (.xorReg 1 2)) ∧
    (decodeWord 0b1000000100100100 = .ok (.addReg 1 2) ∧ decodeWord 0b1000000100100101 = .ok (.subReg 1 2)) ∧
    (decodeWord 0b1000000100100110 = .ok (.shr 1 2) ∧ decodeWord 0b1000000100100111 = .ok (.subnReg 1 2)) ∧
    decodeWord 0b1000000100101110 = .ok (.shl 1 2) :=
  ⟨⟨rfl, rfl⟩, ⟨rfl, rfl⟩, ⟨rfl, rfl⟩, ⟨rfl, rfl⟩, ⟨rfl, rfl⟩, rfl⟩

theorem test_decode_index_random_display :
    (decodeWord 0b1010000100100011 = .ok (.ldI 0x123) ∧ decodeWord 0b1111000100011110 = .ok (.addIVx 1)) ∧
    (decodeWord 0b1111000100101001 = .ok (.ldFVx 1) ∧ decodeWord 0b1100000100001111 = .ok (.rnd 1 0x0F)) ∧
    decodeWord 0b0000000011100000 = .ok .cls ∧ decodeWord 0b1101000000010010 = .ok (.drw 0 1 2) :=
  ⟨⟨rfl, rfl⟩, ⟨rfl, rfl⟩, rfl, rfl⟩

theorem test_decode_timer_block_key :
    (decodeWord 0b1111000100000111 = .ok (.ldVxDt 1) ∧ decodeWord 0b1111000100010101 = .ok (.ldDtVx 1)) ∧
    (decodeWord 0b1111000100011000 = .ok (.ldStVx 1) ∧ decodeWord 0b1111000100110011 = .ok (.ldBVx 1)) ∧
    (decodeWord 0b1111001101010101 = .ok (.ldMemVx 3) ∧ decodeWord 0b1111010001100101 = .ok (.ldVxMem 4)) ∧
    decodeWord 0b1111001100001010 = .ok (.ldVxK 3) :=
  ⟨⟨rfl, rfl⟩, ⟨rfl, rfl⟩, ⟨rfl, rfl⟩, rfl⟩

/-- Illegal neighbours of legal words (V-DEC-2). -/
theorem test_decode_illegal :
    [0x0000, 0x00E1, 0x01E0, 0x0FEE, 0x5001, 0x500F, 0x8008, 0x800D, 0x800F, 0x9001].map selectInstr =
      List.replicate 10 none ∧
    [0xE09D, 0xE09F, 0xE0A0, 0xE0A2, 0xF006, 0xF00B, 0xF056, 0xF064, 0xF066, 0xFFFF].map selectInstr =
      List.replicate 10 none := by decide

/-- The host's numbering of a table word: the word itself, and none for an illegal one. -/
theorem test_decode_table_word :
    decodeTableWord 16 0xD012 = some (.drw 0 1 2) ∧ decodeTableWord 16 0x0000 = none := ⟨rfl, rfl⟩

/-! Flow control -/

/-- V-FLOW-1 -/
theorem test_jp : after (start []) 0x1ABC State.pc = some 0x0ABC := by decide
/-- V-FLOW-5 -/
theorem test_call :
    after (start []) 0x2300 (fun t => (t.pc, t.sp, t.stack[0])) = some (0x0300, 1, 0x0202) := by decide
/-- V-FLOW-7 -/
theorem test_call_overflow :
    after { start [] with sp := 16 } 0x2300 fatal = some (some ⟨.stackOverflow, 0x2300, 0x0200, 0⟩, 0x0200) := by decide
/-- V-FLOW-12 -/
theorem test_ret :
    after { start [] with pc := 0x0500, sp := 2, stack := (start []).stack.set 1 0x0404 } 0x00EE
      (fun t => (t.pc, t.sp)) = some (0x0404, 1) := by decide
/-- V-FLOW-10 -/
theorem test_ret_underflow :
    after (start []) 0x00EE fatal = some (some ⟨.stackUnderflow, 0x00EE, 0x0200, 0⟩, 0x0200) := by decide
/-- V-FLOW-13, V-FLOW-14 -/
theorem test_se_imm : after (start [(1, 0x11)]) 0x3111 State.pc = some 0x0204 ∧
    after (start [(1, 0x11)]) 0x3112 State.pc = some 0x0202 := by decide
/-- V-FLOW-15, V-FLOW-16 -/
theorem test_sne_imm : after (start [(1, 0x11)]) 0x4111 State.pc = some 0x0202 ∧
    after (start [(1, 0x11)]) 0x4112 State.pc = some 0x0204 := by decide
/-- V-FLOW-18, V-FLOW-19 -/
theorem test_se_reg : after (start [(1, 7), (2, 7)]) 0x5120 State.pc = some 0x0204 ∧
    after (start [(1, 7), (2, 8)]) 0x5120 State.pc = some 0x0202 := by decide
/-- V-FLOW-22, V-FLOW-23 -/
theorem test_sne_reg : after (start [(1, 7), (2, 8)]) 0x9120 State.pc = some 0x0204 ∧
    after (start [(1, 7), (2, 7)]) 0x9120 State.pc = some 0x0202 := by decide
/-- V-FLOW-26, V-FLOW-29, V-FLOW-30 -/
theorem test_skp : after { start [(1, 0x0A)] with key := some 0xA } 0xE19E State.pc = some 0x0204 ∧
    after { start [(1, 0x1A)] with key := some 0xA } 0xE19E State.pc = some 0x0202 ∧
    after (start [(1, 0)]) 0xE19E State.pc = some 0x0202 := by decide
/-- V-FLOW-32, V-FLOW-33, V-FLOW-35 -/
theorem test_sknp : after { start [(1, 0x0A)] with key := some 0xA } 0xE1A1 State.pc = some 0x0202 ∧
    after (start [(1, 0x0A)]) 0xE1A1 State.pc = some 0x0204 ∧
    after { start [(1, 0x1A)] with key := some 0xA } 0xE1A1 State.pc = some 0x0204 := by decide
/-- V-FLOW-38, V-FLOW-40 -/
theorem test_jp_v0 : after (start [(0, 0xFF)]) 0xBFFF State.pc = some 0x10FE ∧
    after (start [(3, 0x55)]) 0xB300 State.pc = some 0x0300 := by decide

/-! Arithmetic and logic -/

/-- V-ALU-1, V-ALU-2 -/
theorem test_ld_imm : after (start []) 0x63AB (two 3 15) = some (0xAB, 0, 0x0202) ∧
    after (start []) 0x6F7E (two 3 15) = some (0, 0x7E, 0x0202) := by decide
/-- V-ALU-3, V-ALU-5 -/
theorem test_add_imm : after (start [(3, 0xFF)]) 0x7302 (two 3 15) = some (0x01, 0, 0x0202) ∧
    after (start [(15, 0x10)]) 0x7FF5 (two 3 15) = some (0, 0x05, 0x0202) := by decide
/-- V-ALU-7, V-ALU-9 -/
theorem test_ld_reg : after (start [(2, 0x5A)]) 0x8120 (two 1 15) = some (0x5A, 0, 0x0202) ∧
    after (start [(2, 0x5A), (15, 1)]) 0x8F20 (two 1 15) = some (0, 0x5A, 0x0202) := by decide
/-- V-ALU-10, V-ALU-14 -/
theorem test_or : after (start [(1, 0xF0), (2, 0x0F), (15, 0x77)]) 0x8121 (two 1 15) = some (0xFF, 0x77, 0x0202) ∧
    after (start [(15, 0x01), (2, 0x80)]) 0x8F21 (two 1 15) = some (0, 0x81, 0x0202) := by decide
/-- V-ALU-11 -/
theorem test_and : after (start [(1, 0xF0), (2, 0x3C), (15, 0x77)]) 0x8122 (two 1 15) = some (0x30, 0x77, 0x0202) := by
  decide
/-- V-ALU-12, V-ALU-13 -/
theorem test_xor : after (start [(1, 0xFF), (2, 0x0F), (15, 0x77)]) 0x8123 (two 1 15) = some (0xF0, 0x77, 0x0202) ∧
    after (start [(1, 0xC3)]) 0x8113 (two 1 15) = some (0, 0, 0x0202) := by decide
/-- V-ALU-15, V-ALU-19 -/
theorem test_add_reg : after (start [(1, 0xFF), (2, 0x01)]) 0x8124 (two 1 15) = some (0x00, 1, 0x0202) ∧
    after (start [(1, 0x80), (2, 0x7F), (15, 1)]) 0x8124 (two 1 15) = some (0xFF, 0, 0x0202) := by decide
/-- V-ALU-22, V-ALU-24 -/
theorem test_add_reg_vf : after (start [(15, 0xFF), (1, 0x01)]) 0x8F14 (two 1 15) = some (0x01, 1, 0x0202) ∧
    after (start [(1, 0x01), (15, 0xFF)]) 0x81F4 (two 1 15) = some (0x00, 1, 0x0202) := by decide
/-- V-ALU-28, V-ALU-29 -/
theorem test_sub : after (start [(1, 1), (2, 2), (15, 1)]) 0x8125 (two 1 15) = some (0xFF, 0, 0x0202) ∧
    after (start [(1, 5), (2, 5)]) 0x8125 (two 1 15) = some (0, 1, 0x0202) := by decide
/-- V-ALU-34, V-ALU-36 -/
theorem test_sub_vf : after (start [(15, 5), (2, 3)]) 0x8F25 (two 2 15) = some (3, 1, 0x0202) ∧
    after (start [(1, 3), (15, 5)]) 0x81F5 (two 1 15) = some (0xFE, 0, 0x0202) := by decide
/-- V-ALU-49, V-ALU-51 -/
theorem test_shr : after (start [(1, 4), (2, 0xFF), (15, 1)]) 0x8126 (two 1 15) = some (2, 0, 0x0202) ∧
    after (start [(15, 2), (0, 0xFF)]) 0x8F06 (two 0 15) = some (0xFF, 0, 0x0202) := by decide
/-- V-ALU-40, V-ALU-42 -/
theorem test_subn : after (start [(1, 2), (2, 1), (15, 1)]) 0x8127 (two 1 15) = some (0xFF, 0, 0x0202) ∧
    after (start [(15, 3), (2, 5)]) 0x8F27 (two 2 15) = some (5, 1, 0x0202) := by decide
/-- V-ALU-52, V-ALU-56 -/
theorem test_shl : after (start [(1, 0x81)]) 0x810E (two 1 15) = some (2, 1, 0x0202) ∧
    after (start [(1, 1), (2, 0x80)]) 0x812E (two 1 2) = some (2, 0x80, 0x0202) := by decide

/-! Index register, random, display -/

/-- V-IDX-2 -/
theorem test_ld_i : after (start []) 0xAFFF (fun t => (t.i, t.pc)) = some (0x0FFF, 0x0202) := by decide
/-- V-IDX-5, V-IDX-6 -/
theorem test_add_i : after (startI 0x0FFF [(1, 1)]) 0xF11E (fun t => (t.i, t.reg 15)) = some (0x1000, 0) ∧
    after (startI 0xFFFF [(1, 2)]) 0xF11E (fun t => (t.i, t.reg 15)) = some (0x0001, 0) := by decide
/-- V-IDX-9, V-IDX-14 -/
theorem test_ld_f : after (start [(1, 0x0A)]) 0xF129 State.i = some 0x0032 ∧
    after (start [(1, 0x1A)]) 0xF129 State.i = some 0x0082 := by decide
/-- V-RND-1, V-RND-4 -/
theorem test_rnd : event ((start []).withFetchWord 16 0xC10F) (.step 0xA7) (two 1 15) = some (0x07, 0, 0x0202) ∧
    event ((start [(15, 1)]).withFetchWord 16 0xCFF0) (.step 0xA7) (two 1 15) = some (0, 0xA0, 0x0202) := by decide
/-- V-DRW-1 -/
theorem test_cls :
    after { start [] with fb := clearFrame.set 5 0xFF } 0x00E0 (fun t => (lit t, t.pc)) = some ([], 0x0202) := by decide
/-- V-DRW-3 (source example S6) -/
theorem test_drw_wraps_columns :
    after ((startI 0x300 [(0, 0x3C)]).writeByte 0x300 0xFF) 0xD011 (fun t => (lit t, t.reg 15)) =
      some ([(0, 0), (0, 1), (0, 2), (0, 3), (0, 60), (0, 61), (0, 62), (0, 63)], 0) := by decide
/-- V-DRW-19: the old VF is the row, and the pixel that was on collides. -/
theorem test_drw_collides :
    after ({ startI 0x300 [(0, 3), (15, 2)] with fb := clearFrame.set 2 (BitVec.twoPow 64 60) }.writeByte 0x300 0x80)
      0xD0F1 (fun t => (lit t, t.reg 15)) = some ([], 1) := by decide

/-! Timers, BCD, blocks, key-wait -/

/-- V-TMR-1 -/
theorem test_ld_vx_dt :
    after { start [] with dt := 0x2A } 0xF107 (fun t => (t.reg 1, t.dt)) = some (0x2A, 0x2A) := by decide
/-- V-TMR-3 -/
theorem test_ld_dt_vx : after (start [(1, 0x3C)]) 0xF115 (fun t => (t.dt, t.st)) = some (0x3C, 0) := by decide
/-- V-TMR-5, V-TMR-6 -/
theorem test_ld_st_vx : after (start [(1, 5)]) 0xF118 (fun t => (t.st, t.sound)) = some (5, true) ∧
    after { start [] with st := 0x10 } 0xF118 (fun t => (t.st, t.sound)) = some (0, false) := by decide
/-- V-MEM-13 -/
theorem test_bcd : after (startI 0x300 [(1, 0xC7)]) 0xF133
    (fun t => (t.readByte 0x300, t.readByte 0x301, t.readByte 0x302, t.i)) = some (1, 9, 9, 0x300) := by decide
/-- V-MEM-8: nothing is written, the first bad address in ascending order is reported. -/
theorem test_bcd_glyph_region : after (startI 0x004E [(1, 0x7B)]) 0xF133 (fun t => (fatal t, t.mem.length)) =
    some ((some ⟨.outOfRangeAccess, 0xF133, 0x0200, 0x4E⟩, 0x0200), 2) := by decide
/-- V-MEM-14 -/
theorem test_bulk_store :
    after ((startI 0x400 [(0, 0x11), (1, 0x22), (2, 0x33), (3, 0x44), (4, 0x55)]).writeByte 0x404 0xEE) 0xF355
      (fun t => ([0x400, 0x401, 0x402, 0x403, 0x404].map t.readByte, t.i)) =
      some ([0x11, 0x22, 0x33, 0x44, 0xEE], 0x400) := by decide
/-- V-MEM-17 -/
theorem test_bulk_store_top : after (startI 0xFF1 [(0, 0x10), (15, 0xFF)]) 0xFF55 fatal =
    some (some ⟨.outOfRangeAccess, 0xFF55, 0x0200, 0x1000⟩, 0x0200) := by decide
/-- V-MEM-9, with the default glyphs -/
theorem test_bulk_load : after (start [(5, 0x77)]) 0xF465
    (fun t => ([0, 1, 2, 3, 4, 5].map t.reg, t.pc)) = some ([0xF0, 0x90, 0x90, 0x90, 0xF0, 0x77], 0x0202) := by decide
/-- V-MEM-22 -/
theorem test_bulk_load_top : after ((startI 0xFFF [(0, 0x99)]).writeByte 0xFFF 0xAB) 0xF165
    (fun t => (fatal t, t.reg 0)) = some ((some ⟨.outOfRangeAccess, 0xF165, 0x0200, 0x1000⟩, 0x0200), 0x99) := by decide
/-- V-KEY-A, event 1 -/
theorem test_key_wait : after (start []) 0xF30A (fun t => (t.mode, t.kreg, t.pc, t.reg 3)) =
    some (.blockedOnKey, 3, 0x0200, 0) := by decide
/-- V-KEY-A, event 5 -/
theorem test_key_press : event ((start []).await 3) (.setKey (some 0xA)) (fun t => (t.reg 3, t.key, t.mode, t.pc)) =
    some (0x0A, some 0xA, .running, 0x0202) := by decide

/-! Events, decode and fetch faults -/

/-- A clock cycle in which no strobe is asserted. -/
def clk : PortsIn where
  rst := false
  ldValid := false
  ldIndex := 0
  ldData := 0
  step := false
  rnd := 0
  keyValid := false
  keyDown := false
  keyCode := 0
  tick := false

/-- V-EVT-3 -/
theorem test_tick : event { start [] with st := 1 } .tick (fun t => (t.dt, t.st)) = some (0, 0) := by decide
/-- V-DEC-2 -/
theorem test_illegal_word : after (start []) 0x0123 fatal =
    some (some ⟨.decodeError, 0x0123, 0x0200, 0⟩, 0x0200) := by decide
/-- V-FLT-1, event 2 -/
theorem test_run_off_the_top : event { start [] with pc := 0x1000 } (.step 0) fatal =
    some (some ⟨.outOfRangeAccess, 0x0000, 0x1000, 0x1000⟩, 0x1000) := by decide
/-- R263: byte `i` of the image is at 0x200 + i. -/
theorem test_load : event (start []) (.load [0x12, 0x00]) (fun t => (t.fetchWord, t.pc, t.boot)) =
    some (0x1200, 0x0200, .booted) := by decide
/-- R241: the load port writes at any index, out of order and twice over, and after another event no more. -/
theorem test_load_port :
    event { start [] with boot := .awaitingLoad } (.loadPort 3583 0xAB) (fun t => (t.readByte 0xFFF, t.pc, t.boot)) =
      some (0xAB, 0x0200, .loading) ∧
    event ({ start [] with boot := .loading }.writeByte 0x200 0x11) (.loadPort 0 0x12) (fun t => t.readByte 0x200) =
      some 0x12 ∧
    event { start [] with boot := .loading } (.loadPort 3584 0) State.fetchWord = none ∧
    event { start [] with boot := .booted } (.loadPort 0 0) State.fetchWord = none := by decide
/-- R79: the glyph bytes are those of the parameter, here a ROM of bytes 0x77. -/
theorem test_other_glyph_rom :
    after { start [] with glyphRom := Vector.replicate 80 0x77 } 0xF165 (fun t => (t.reg 0, t.reg 1)) =
      some (0x77, 0x77) := by decide
/-- R231: the order of one cycle's events. -/
theorem test_cycle_order :
    PortsIn.events { clk with keyValid := true, keyDown := true, keyCode := 0xA, step := true, rnd := 0x5A, tick := true } =
    [.setKey (some 0xA), .step 0x5A, .tick] := by decide

/-! Witnesses: for each obligation that has hypotheses, states and operands that meet them, clause by clause. -/

/-- The reset state with a word placed at `PC`. -/
def placed (w : Nat) : State := State.reset.withFetchWord 16 w

/-- A state halted by a RET with nothing on the stack. -/
def halted : State := { placed 0x00EE with halt := some ⟨.stackUnderflow, 0x00EE, 0x0200, 0⟩ }

/-- A state blocked at a key-wait. -/
def blocked : State := (placed 0xF30A).await 3

/-- The same state with events scheduled. -/
def withEvents (s : State) (es : List Event) : State := { s with pending := es }

/-- A step answers a next state of which `p` is true. -/
def stepSuch (s : State) (p : State → Bool) : Bool :=
  match step s with
  | .next t => p t
  | _ => false

theorem step_of_stepSuch {s : State} {p : State → Bool} (h : stepSuch s p = true) :
    ∃ t, step s = .next t ∧ p t = true := by
  unfold stepSuch at h
  split at h
  · exact ⟨_, ‹_›, h⟩
  · cases h

/-- A state that has booted, runs and is not halted meets the invariant when its memory is canonical. -/
theorem inv_of_idle {s : State} (hw : Memory.wf s.mem = true) (hb : s.boot = .booted) (hh : s.halt = none)
    (hm : s.mode = .running) : s.Inv :=
  ⟨hw, fun h => (h hb).elim, fun h => (h hh).elim, fun r h => (by rw [hh] at h; cases h),
    fun h => (by rw [hm] at h; cases h)⟩

theorem witness_EncodeUndoesDecode :
    decodeWord 0xFF65 = .ok (.ldVxMem 15) ∧ decodeWord 0x00E0 = .ok .cls := ⟨rfl, rfl⟩

theorem witness_DecodeIsTotalStrictAndUnambiguous :
    LegalWord 0x00EE ∧ LegalWord 0x800E ∧ ¬ LegalWord 0x00EF ∧ ¬ LegalWord 0x800D := by
  refine ⟨?_, ?_, ?_, ?_⟩ <;> unfold LegalWord <;> decide

theorem witness_IllegalWordsAreCountedAndHalt :
    (placed 0x0000).Ready ∧ fetchable (placed 0x0000).pc = true ∧ ¬ LegalWord (placed 0x0000).fetchWord :=
  ⟨⟨rfl, rfl, rfl⟩, rfl, by
    rw [show (placed 0x0000).fetchWord = 0x0000 by decide]; unfold LegalWord; decide⟩

theorem witness_StepRunsTheDecodedInstruction :
    (placed 0x6301).halt = none ∧ (placed 0x6301).mode = .running ∧ fetchable (placed 0x6301).pc = true ∧
    decode (placed 0x6301).fetchBytes = .ok (.ldImm 3 1, []) ∧ (placed 0x6301).pending = [] ∧
    (withEvents (placed 0x6301) [.step 7, .tick]).pending = .step 7 :: [.tick] := ⟨rfl, rfl, rfl, rfl, rfl, rfl⟩

theorem witness_StepFollowsTheSequence :
    (halted.pending = [] ∧ halted.halt ≠ none) ∧ (blocked.halt = none ∧ blocked.mode = .blockedOnKey) ∧
    ([0x0201, 0x01FE, 0x1000].map fetchable = [false, false, false] ∧ [0x0200, 0x0FFE].map fetchable = [true, true]) ∧
    (decodeWord (placed 0x8128).fetchWord = .error (.illegal 0x8128) ∧
      decodeWord (placed 0x8124).fetchWord = .ok (.addReg 1 2)) := by decide

theorem witness_FetchCheckGuardsThePc :
    State.reset.Ready ∧ fetchable ((0x201 : BitVec 12).setWidth 16) = false ∧
    ({ State.reset with pc := 0x1000 } : State).Ready ∧ fetchable 0x1000 = false :=
  ⟨⟨rfl, rfl, rfl⟩, rfl, ⟨rfl, rfl, rfl⟩, rfl⟩

/-- A scheduled RET with nothing on the stack records StackUnderflow. -/
theorem witness_FatalConditionsArePrecise :
    ∃ s t : State, s.StepIsNext ∧ step s = .next t ∧ t.halt ≠ s.halt := by
  obtain ⟨t, h, hp⟩ := step_of_stepSuch (s := withEvents (placed 0x00EE) [.step 0]) (p := fun t => t.halt.isSome)
    (by decide)
  exact ⟨_, t, .inr ⟨_, _, rfl⟩, h, fun e => by rw [e] at hp; exact absurd hp (by decide)⟩

/-- Every cause occurs, at the boundary values of its range. -/
theorem witness_EachFatalConditionHasItsCause :
    after { State.reset with i := 0x0FFF } 0xD012 fatal =
      some (some ⟨.outOfRangeAccess, 0xD012, 0x0200, 0x1000⟩, 0x0200) ∧
    after { State.reset with i := 0xFFFF } 0xF065 fatal =
      some (some ⟨.outOfRangeAccess, 0xF065, 0x0200, 0xFFFF⟩, 0x0200) ∧
    after { State.reset with i := 0x0FFE } 0xF133 fatal =
      some (some ⟨.outOfRangeAccess, 0xF133, 0x0200, 0x1000⟩, 0x0200) ∧
    after { State.reset with i := 0x004F } 0xF155 fatal =
      some (some ⟨.outOfRangeAccess, 0xF155, 0x0200, 0x004F⟩, 0x0200) := by decide

theorem halted_inv : halted.Inv :=
  ⟨by decide, fun h => (h rfl).elim, fun _ => rfl,
    fun r h => (by cases h; exact ⟨rfl, rfl, rfl, by decide, rfl⟩), fun h => (by cases h)⟩

theorem witness_HaltedMachineOnlyCountsAndLatches :
    halted.halt = some ⟨.stackUnderflow, 0x00EE, 0x0200, 0⟩ ∧ halted.pending = [] ∧ halted.Inv ∧
    ∃ t, step (withEvents halted [.tick]) = .next t := ⟨rfl, rfl, halted_inv, _, rfl⟩

theorem witness_OnlyResetClearsHalt :
    (∃ t, step (withEvents halted [.setKey (some 4)]) = .next t) ∧ ∃ t, step (withEvents halted [.reset]) = .next t :=
  ⟨⟨_, rfl⟩, _, rfl⟩

/-- The last index the load port may write, the first it may not, and a write after another event. -/
theorem witness_OnlyAMisplacedLoadIsRefused :
    steps (withEvents State.reset [.loadPort 3583 0]) = true ∧ steps (withEvents State.reset [.loadPort 3584 0]) = false ∧
    steps (withEvents blocked [.loadPort 0 0]) = false ∧ steps (withEvents blocked [.load []]) = false ∧
    steps (withEvents { State.reset with boot := .loading } [.load []]) = false := by decide

theorem witness_BlockedMachineOnlyWaits : blocked.mode = .blockedOnKey ∧ blocked.pending = [] ∧
    (withEvents blocked [.step 1]).mode = .blockedOnKey ∧ (withEvents blocked [.tick]).mode = .blockedOnKey :=
  ⟨rfl, rfl, rfl, rfl⟩

theorem witness_ModeChangesOnlyByKeyWaitKeyPressAndReset :
    stepSuch (placed 0xF30A) (fun t => t.mode == .blockedOnKey && (placed 0xF30A).mode == .running) = true ∧
    stepSuch (withEvents blocked [.setKey (some 0)]) (fun t => t.mode == .running) = true ∧
    stepSuch (withEvents blocked [.reset]) (fun t => t.mode == .running) = true := by decide

theorem witness_TickCountsBothTimersDown :
    event { State.reset with dt := 0, st := 1 } .tick (fun t => (t.dt, t.st)) = some (0, 0) ∧
    event { blocked with dt := 0xFF } .tick (fun t => (t.dt, t.mode)) = some (0xFE, .blockedOnKey) := by decide

theorem witness_SetKeyLatchesAndEndsTheWait :
    (blocked.mode = .blockedOnKey ∧ blocked.halt = none) ∧ (placed 0x1200).mode = .running ∧ halted.halt ≠ none := by
  decide

theorem witness_LoadWritesTheImageOnce :
    State.reset.boot = .awaitingLoad ∧ (List.replicate 3584 (0 : Byte)).length ≤ 3584 ∧
    3584 < (List.replicate 3585 (0 : Byte)).length ∧ blocked.boot ≠ .awaitingLoad ∧
    ({ State.reset with boot := .loading } : State).boot ≠ .awaitingLoad := by
  rw [List.length_replicate, List.length_replicate]; decide

theorem witness_ResetEventRestoresEveryElement : (withEvents blocked [.reset, .tick]).pending = .reset :: [.tick] := rfl

theorem witness_StrobesOfACycleAreOrdered :
    PortsIn.events { clk with rst := true, ldValid := true, step := true, keyValid := true, tick := true } = [.reset] ∧
    [Event.setKey none, .tick].Sublist (PortsIn.events { clk with keyValid := true, tick := true }) ∧
    PortsIn.events { clk with ldValid := true, ldIndex := 3583, ldData := 0xAB } = [.loadPort 3583 0xAB] := by decide

theorem witness_OutputsAreFunctionsOfTheState :
    halted.haltPort = some (2, 0x00EE, 0x0200, 0) ∧ State.reset.halt = none := by decide

theorem witness_JumpSetsThePc : (0x200 : BitVec 12).toNat = State.reset.pc.toNat ∧ State.reset.Ready ∧
    (0x201 : BitVec 12).toNat % 2 = 1 ∧ (0x1FE : BitVec 12).toNat < 0x200 := ⟨rfl, ⟨rfl, rfl, rfl⟩, rfl, by decide⟩

theorem witness_CallPushesTheNextAddress :
    (({ State.reset with sp := 15 } : State).sp.val < 16) ∧ (({ State.reset with sp := 16 } : State).sp = 16) ∧
    fetchable 0x0FFE = true := by decide

theorem witness_ReturnPopsIntoThePc :
    0 < ({ State.reset with sp := 1 } : State).sp.val ∧ 0 < ({ State.reset with sp := 16 } : State).sp.val ∧
    State.reset.sp = 0 := by decide

theorem witness_ReturnUndoesCall : ∃ t u, State.reset.sp.val < 16 ∧ exec (.call 0x300) State.reset = .next t ∧
    exec .ret { t with pc := 0x400 } = .next u := ⟨_, _, by decide, rfl, rfl⟩

theorem witness_ImmediateSkipsCompare :
    (start [(1, 0xFF)]).reg 1 = 0xFF ∧ (start [(1, 0xFF)]).reg 1 ≠ 0xFE := by decide

theorem witness_RegisterSkipsCompare :
    (start [(1, 7), (2, 7)]).reg 1 = (start [(1, 7), (2, 7)]).reg 2 ∧
    (start [(1, 7), (2, 8)]).reg 1 ≠ (start [(1, 7), (2, 8)]).reg 2 := by decide

theorem witness_KeySkipsReadTheLatch :
    (∃ k, ({ start [(1, 0xF)] with key := some 0xF } : State).key = some k ∧ k.toNat = ((start [(1, 0xF)]).reg 1).toNat) ∧
    ¬ ∃ k, (start [(1, 0)]).key = some k ∧ k.toNat = ((start [(1, 0)]).reg 1).toNat :=
  ⟨⟨0xF, rfl, by decide⟩, fun ⟨_, h, _⟩ => by cases h⟩

theorem witness_JumpWithOffsetAddsV0 : (start [(0, 0xFF)]).Ready ∧ 0xFFE < 0xFFF + ((start [(0, 0xFF)]).reg 0).toNat ∧
    0x100 + ((start [(0, 0xFF)]).reg 0).toNat < 0x200 := ⟨⟨rfl, rfl, rfl⟩, by decide, by decide⟩

/-- The hypotheses of the register frames: a destination that is VF, one that is not, and registers that are neither. -/
theorem witness_register_frames : ∃ x z : Reg, x ≠ 15 ∧ z ≠ x ∧ z ≠ 15 := ⟨1, 0, by decide⟩

theorem witness_ResultAndFlagAreTheExactResult : ∃ a b c d e,
    exec (.addReg 1 15) (start [(1, 0xFF), (15, 0xFF)]) = .next a ∧ exec (.subReg 1 2) (start [(2, 0xFF)]) = .next b ∧
    exec (.subnReg 1 1) (start []) = .next c ∧ exec (.shr 1 0) (start [(1, 1)]) = .next d ∧
    exec (.shl 1 0) (start [(1, 0x80)]) = .next e := ⟨_, _, _, _, _, rfl, rfl, rfl, rfl, rfl⟩

theorem witness_RandomIsAMaskedFreeByte :
    (withEvents State.reset [.step 0xA7]).pending = .step 0xA7 :: [] ∧ State.reset.pending = [] ∧
    ∀ x kk, Instr.cls ≠ .rnd x kk := ⟨rfl, rfl, fun _ _ h => by cases h⟩

theorem witness_DrawReadsTheSpriteAndSetsCollision :
    (0 : BitVec 4) = 0 ∧ ({ State.reset with i := 0x0FF1 } : State).i.toNat + (15 : BitVec 4).toNat - 1 ≤ 0xFFF ∧
    (0 < (15 : BitVec 4).toNat ∧ 0xFFF < ({ State.reset with i := 0x0FF2 } : State).i.toNat + (15 : BitVec 4).toNat - 1) := by
  decide

theorem witness_DrawInvertsExactlyTheLitPixels :
    [(0x81 : Byte)].length ≤ 15 ∧ SpriteLit 63 31 [0x81] 31 63 ∧ SpriteLit 63 31 [0x81] 31 6 ∧
    ¬ SpriteLit 63 31 [] 31 63 :=
  ⟨by decide, ⟨0, 0, 0x81, rfl, by decide, rfl, rfl, rfl⟩, ⟨0, 7, 0x81, rfl, by decide, rfl, rfl, rfl⟩,
    fun ⟨_, _, _, h, _⟩ => by simp at h⟩

theorem witness_DrawingTwiceRestoresTheDisplay :
    [(0xFF : Byte)].length ≤ 15 ∧ (∀ r c, pixel clearFrame r c = false) ∧ ∀ byte ∈ [(0 : Byte)], byte = 0 :=
  ⟨by decide, fun r c => by simp [pixel, clearFrame], by decide⟩

theorem witness_BcdStoresThreeDigits :
    (0x50 ≤ (startI 0x0050 []).i.toNat ∧ (startI 0x0FFD []).i.toNat + 2 ≤ 0xFFF) ∧
    (startI 0x004F []).i.toNat < 0x50 ∧ 0xFFF < (startI 0x0FFE []).i.toNat + 2 := by decide

theorem witness_BulkStoreWritesV0ThroughVx :
    (0x50 ≤ (startI 0x0FF0 []).i.toNat ∧ (startI 0x0FF0 []).i.toNat + (15 : Reg).val ≤ 0xFFF) ∧
    (startI 0x004F []).i.toNat < 0x50 ∧ 0xFFF < (startI 0x0FF1 []).i.toNat + (15 : Reg).val := by decide

theorem witness_BulkLoadReadsV0ThroughVx :
    (startI 0x0FFF []).i.toNat + (0 : Reg).val ≤ 0xFFF ∧ 0xFFF < (startI 0x0FFF []).i.toNat + (1 : Reg).val := by decide

theorem witness_BulkStoreThenLoadRecoversTheRegisters : ∃ s t u : State, 0x50 ≤ s.i.toNat ∧
    s.i.toNat + (3 : Reg).val ≤ 0xFFF ∧ exec (.ldMemVx 3) s = .next t ∧
    exec (.ldVxMem 3) { t with v := Vector.replicate 16 0xEE } = .next u :=
  ⟨startI 0x400 [(0, 0x11)], _, _, by decide, by decide, rfl, rfl⟩

theorem witness_MemReadChecksThenReads : 0 < 2 ∧ 0xFFE + 2 - 1 ≤ 0xFFF ∧ 0xFFF < 0xFFF + 2 - 1 := by decide

theorem witness_MemWriteChangesOneByte : 0xFFF < 0x1000 ∧ 0x4F ≤ 0x4F ∧ 0x50 ≤ 0x50 ∧ 0xFFF ≤ 0xFFF := by decide

theorem witness_GlyphRegionIsReadOnly :
    Memory.wf (placed 0xF133).mem = true ∧ ∃ t, step (placed 0xF133) = .next t := ⟨by decide, _, rfl⟩

/-- A store that changes a byte. -/
theorem witness_MemoryChangesOnlyWhereItsWritersWrite :
    stepSuch (((startI 0x300 [(0, 1)]).writeByte 0x300 0xEE).withFetchWord 16 0xF055)
      (fun t => t.readByte 0x300 != 0xEE) = true := by decide

/-- V-MEM-25: the stored bytes are the next instruction. -/
theorem witness_StoredCodeRunsAtOnce : ∃ s : State, s.Ready ∧ fetchable s.pc = true ∧
    decodeWord s.fetchWord = .ok (.ldMemVx 1) ∧ 0x50 ≤ s.i.toNat ∧ s.i.toNat + (1 : Reg).val ≤ 0xFFF ∧
    s.i.toNat + (0 : Reg).val = s.pc.toNat + 2 ∧ s.i.toNat + (1 : Reg).val = s.pc.toNat + 3 ∧
    decodeWord (wordOfBytes (s.reg 0) (s.reg 1)) = .ok (.jp 0x200) ∧ steps s = true :=
  ⟨(startI 0x202 [(0, 0x12)]).withFetchWord 16 0xF155, ⟨rfl, rfl, rfl⟩, rfl, by decide, by decide, by decide, by decide,
    by decide, rfl, by decide⟩

theorem witness_RegistersHaveAClosedListOfWriters : ∃ t, exec (.addReg 1 2) (start [(1, 0xFF), (2, 1)]) = .next t ∧
    t.reg 1 ≠ (start [(1, 0xFF), (2, 1)]).reg 1 ∧ t.reg 15 ≠ (start [(1, 0xFF), (2, 1)]).reg 15 ∧
    WritesFlag (.addReg 1 2) ∧ (start [(1, 0xFF), (2, 1)]).halt = none ∧ t.halt = none :=
  ⟨_, rfl, by decide, by decide, trivial, rfl, rfl⟩

/-- Each writer of the lists does write: I, SP and STACK, MODE, then MEM, HALT, PC (a taken skip), the count of draws. -/
theorem witness_EveryElementHasAClosedListOfWriters : ∃ a b c d e f g,
    (exec (.ldI 1) State.reset = .next a ∧ a.i ≠ State.reset.i) ∧
    (exec (.call 1) State.reset = .next b ∧ b.sp ≠ State.reset.sp ∧ b.stack ≠ State.reset.stack) ∧
    (exec (.ldVxK 1) State.reset = .next c ∧ c.mode ≠ State.reset.mode ∧ c.pc = State.reset.pc) ∧
    (exec (.ldBVx 1) (startI 0x300 [(1, 1)]) = .next d ∧ d.mem ≠ (startI 0x300 [(1, 1)]).mem) ∧
    (exec .ret State.reset = .next e ∧ e.halt ≠ State.reset.halt ∧ e.pc ≠ State.reset.pc + 2) ∧
    (exec (.seImm 1 0) State.reset = .next f ∧ f.pc ≠ State.reset.pc + 2) ∧
    (exec (.rnd 1 0) State.reset = .next g ∧ g.draws ≠ State.reset.draws) :=
  ⟨_, _, _, _, _, _, _, ⟨rfl, by decide⟩, ⟨rfl, by decide, by decide⟩, ⟨rfl, by decide, rfl⟩, ⟨rfl, by decide⟩,
    ⟨rfl, by decide, by decide⟩, ⟨rfl, by decide⟩, rfl, by decide⟩

theorem witness_NoInstructionReadsStModeKregOrHalt : ∃ t, exec (.ldStVx 1) halted = .next t := ⟨_, rfl⟩

theorem witness_EveryStepKeepsTheInvariant :
    (placed 0xF133).Inv ∧ (∃ t, step (placed 0xF133) = .next t) ∧ halted.Inv ∧ ∃ t, step halted = .next t :=
  ⟨inv_of_idle (by decide) rfl rfl rfl, ⟨_, rfl⟩, halted_inv, _, rfl⟩

end Sys2Proof.Tests
end

/-! SUPPORT. What a step does to memory, said once: the writers of R81, and the glyph region none of them reaches. -/

namespace Sys2Proof.Machine

/-- The bytes the instruction stores from `I` on: the digits of LD B, Vx (R198) or the registers of LD [I], Vx (R199). -/
def Stores (i : Instr) (s : State) (bytes : List Byte) : Prop :=
  match i with
  | .ldBVx x => bytes = bcdDigits (s.reg x)
  | .ldMemVx x => bytes = s.regsThrough x
  | _ => False

/-- The next event writes these bytes from this address on: the Load, the load port, or a Step that runs a store. With
Reset, which empties memory, these are the writers of R81. -/
inductive WritesMemory (s : State) : Nat → List Byte → Prop where
  | load {image es} (hp : s.pending = .load image :: es) (hl : image.length ≤ 3584) : WritesMemory s progBase image
  | loadPort {index data es} (hp : s.pending = .loadPort index data :: es) (hi : index.toNat ≤ 3583) :
      WritesMemory s (progBase + index.toNat) [data]
  | store {i bytes} (hn : s.StepIsNext) (hd : decodeWord s.fetchWord = .ok i) (hs : Stores i s bytes)
      (hr : WritesInRange s.i.toNat bytes.length) : WritesMemory s s.i.toNat bytes

/-- No writer reaches the glyph region or passes the end of memory (R74, R76, R237, R241). -/
theorem WritesMemory.inRange {s : State} {a : Nat} {bytes : List Byte} (h : WritesMemory s a bytes) :
    WritesInRange a bytes.length := by
  cases h with
  | load _ hl => exact ⟨by decide, by simp only [progBase]; omega⟩
  | loadPort _ hi => exact ⟨by simp only [progBase]; omega, by simp only [progBase, List.length_singleton]; omega⟩
  | store _ _ _ hr => exact hr

/-- A push changes the stack and its depth only (R37). -/
theorem State.push_frame {s t : State} {a : Word} (h : s.push a = some t) :
    t = { s with stack := t.stack, sp := t.sp } := by
  unfold State.push at h
  split at h <;> cases h
  rfl

/-- A pop changes the depth of the stack only (R37). -/
theorem State.pop_frame {s t : State} {a : Word} (h : s.pop = some (a, t)) : t = { s with sp := t.sp } := by
  unfold State.pop at h
  split at h <;> cases h
  rfl

/-- A store from `I` on writes its bytes, every address being writable, or leaves memory alone. -/
theorem storeAtI_memory_cases {w : Word} {bytes : List Byte} {s t : State} (hn : bytes ≠ [])
    (h : storeAtI w bytes s = .next t) :
    t.glyphRom = s.glyphRom ∧ t.resets = s.resets ∧
      (t.mem = s.mem ∨ WritesInRange s.i.toNat bytes.length ∧ t.mem = (s.writeBytes s.i.toNat bytes).mem) := by
  by_cases hr : WritesInRange s.i.toNat bytes.length
  · rw [storeAtI_ok _ _ _ hr, State.writeBytes_frame] at h
    cases h
    exact ⟨rfl, rfl, .inr ⟨hr, rfl⟩⟩
  · rw [storeAtI_error _ _ _ hn hr] at h
    cases h
    exact ⟨rfl, rfl, .inl rfl⟩

/-- An instruction leaves memory alone or is a store. -/
theorem exec_memory_cases {i : Instr} {s t : State} (h : exec i s = .next t) :
    t.glyphRom = s.glyphRom ∧ t.resets = s.resets ∧
      (t.mem = s.mem ∨ ∃ bytes, Stores i s bytes ∧ WritesInRange s.i.toNat bytes.length ∧
        t.mem = (s.writeBytes s.i.toNat bytes).mem) := by
  cases i with
  | ldBVx x =>
    obtain ⟨hg, hr, hm⟩ := storeAtI_memory_cases (by simp [bcdDigits]) h
    exact ⟨hg, hr, hm.imp_right fun hw => ⟨_, rfl, hw⟩⟩
  | ldMemVx x =>
    have hn : s.regsThrough x ≠ [] := List.ne_nil_of_length_eq_add_one (s.length_regsThrough x)
    obtain ⟨hg, hr, hm⟩ := storeAtI_memory_cases hn h
    exact ⟨hg, hr, hm.imp_right fun hw => ⟨_, rfl, hw⟩⟩
  | ret =>
    simp only [exec, execRet] at h
    split at h <;> cases h
    · exact ⟨rfl, rfl, .inl rfl⟩
    · rename_i ht
      rw [State.pop_frame ht]; exact ⟨rfl, rfl, .inl rfl⟩
  | call nnn =>
    simp only [exec, execCall] at h
    split at h <;> cases h
    · exact ⟨rfl, rfl, .inl rfl⟩
    · rename_i ht
      rw [State.push_frame ht]; exact ⟨rfl, rfl, .inl rfl⟩
  | drw x y n =>
    simp only [exec, execDrw] at h
    split at h <;> cases h <;> exact ⟨rfl, rfl, .inl rfl⟩
  | ldVxMem x =>
    simp only [exec, execLdVxMem] at h
    split at h <;> cases h <;> exact ⟨rfl, rfl, .inl rfl⟩
  | _ => cases h; exact ⟨rfl, rfl, .inl rfl⟩

/-- A Step event leaves memory alone or runs the store it fetches. -/
theorem stepEvent_memory_cases {s t : State} (hn : s.StepIsNext) (h : stepEvent s = .next t) :
    t.glyphRom = s.glyphRom ∧ t.resets = s.resets ∧
      (t.mem = s.mem ∨ ∃ a bytes, WritesMemory s a bytes ∧ t.mem = (s.writeBytes a bytes).mem) := by
  obtain ⟨-, rfl⟩ | ⟨-, -, ⟨-, h⟩ | ⟨-, -, h⟩ | ⟨-, i, hd, h⟩⟩ := stepEvent_cases h
  · exact ⟨rfl, rfl, .inl rfl⟩
  · cases h; exact ⟨rfl, rfl, .inl rfl⟩
  · cases h; exact ⟨rfl, rfl, .inl rfl⟩
  · obtain ⟨hg, hr, hm⟩ := exec_memory_cases h
    refine ⟨hg, hr, hm.imp_right fun ⟨bytes, hs, hw, he⟩ => ⟨_, bytes, .store hn hd hs hw, ?_⟩⟩
    exact he.trans (State.writeBytes_mem_congr _ bytes rfl)

/-- A step keeps `GLYPH_ROM`, and it is a Reset, leaves memory alone, or is one of the writers of R81. -/
theorem step_memory_cases {s t : State} (h : step s = .next t) :
    t.glyphRom = s.glyphRom ∧
      ((∃ es, s.pending = .reset :: es) ∧ t.mem = [] ∨
        t.resets = s.resets ∧
          (t.mem = s.mem ∨ ∃ a bytes, WritesMemory s a bytes ∧ t.mem = (s.writeBytes a bytes).mem)) := by
  obtain ⟨hp, h⟩ | ⟨e, es, u, hp, h, rfl⟩ := step_cases h
  · obtain ⟨hg, hm⟩ := stepEvent_memory_cases (.inl hp) h
    exact ⟨hg, .inr hm⟩
  cases e with
  | reset => cases h; exact ⟨rfl, .inl ⟨⟨es, hp⟩, rfl⟩⟩
  | load image =>
    obtain ⟨-, hl, rfl⟩ := loadEvent_cases h
    rw [State.writeBytes_frame]
    exact ⟨rfl, .inr ⟨rfl, .inr ⟨_, _, .load hp hl, rfl⟩⟩⟩
  | loadPort index data =>
    obtain ⟨-, hi, rfl⟩ := loadPortEvent_cases h
    exact ⟨rfl, .inr ⟨rfl, .inr ⟨_, _, .loadPort hp hi, rfl⟩⟩⟩
  | step r =>
    obtain ⟨hg, hm⟩ := stepEvent_memory_cases (.inr ⟨r, es, hp⟩) h
    exact ⟨hg, .inr hm⟩
  | tick => cases h; exact ⟨rfl, .inr ⟨rfl, .inl rfl⟩⟩
  | setKey k =>
    obtain ⟨_, -, -, -, hk⟩ | ⟨-, hk⟩ := setKeyEvent_cases k s
    · cases hk.symm.trans h; exact ⟨rfl, .inr ⟨rfl, .inl rfl⟩⟩
    · cases hk.symm.trans h; exact ⟨rfl, .inr ⟨rfl, .inl rfl⟩⟩

/-- Every step keeps memory canonical: the glyph region stays unlisted (R76). -/
theorem step_keeps_wf {s t : State} (hw : Memory.wf s.mem = true) (h : step s = .next t) : Memory.wf t.mem = true := by
  obtain ⟨-, ⟨-, hm⟩ | ⟨-, hm | ⟨a, bytes, hwr, hm⟩⟩⟩ := step_memory_cases h <;> rw [hm]
  · rfl
  · exact hw
  · exact s.wf_writeBytes a bytes hw hwr.inRange.1 hwr.inRange.2

/-- Settles O53: every step keeps `GLYPH_ROM` and the canonical form of memory, in which the glyph region reads as
`GLYPH_ROM`. -/
theorem glyphRegionIsReadOnly : Obligations.GlyphRegionIsReadOnly := by
  unfold Obligations.GlyphRegionIsReadOnly
  intro s t hw h
  have hg : t.glyphRom = s.glyphRom := (step_memory_cases h).1
  refine ⟨hg, fun a => ⟨s.readByte_glyph hw a a.isLt, ?_⟩⟩
  rw [t.readByte_glyph (step_keeps_wf hw h) a a.isLt]
  simp only [hg, Fin.getElem_fin]

end Sys2Proof.Machine

/-! SUPPORT. What an instruction can do to the state, said once by the shape of its writes, and what follows for the
registers, for the other elements and for MODE; then what no instruction reads, the fetch check, Reset and the
outputs. -/

namespace Sys2Proof.Machine

/-- What an instruction that completes does: one constructor for each shape of writes (R31 to R44), as updates of the
state. -/
inductive Completes (s : State) : Instr → State → Prop where
  | skip {i} (hi : IsSkip i) (taken : Bool) : Completes s i (s.setPc (s.skipTarget taken))
  | jump {i} (hi : IsJump i) (a : Word) : Completes s i (s.setPc a)
  | call (nnn : BitVec 12) (stack : Vector Word 16) (sp : Fin 17) (a : Word) :
      Completes s (.call nnn) { s with stack := stack, sp := sp, pc := a }
  | ret (sp : Fin 17) (a : Word) : Completes s .ret { s with sp := sp, pc := a }
  | result {i x} (hi : IsDestination x i) (b : Byte) : Completes s i (s.setReg x b).advance
  | flagged {i x} (hi : IsDestination x i) (hf : WritesFlag i) (b : Byte) (f : Bool) :
      Completes s i (s.setResultThenFlag x b f).advance
  | random (x : Reg) (kk b : Byte) : Completes s (.rnd x kk) (s.setReg x b).drawn.advance
  | block (x : Reg) (bytes : List Byte) (hl : bytes.length = x.val + 1) :
      Completes s (.ldVxMem x) (s.setRegs bytes).advance
  | index {i} (hi : (∃ nnn, i = .ldI nnn) ∨ (∃ x, i = .addIVx x) ∨ ∃ x, i = .ldFVx x) (a : Word) :
      Completes s i (s.setI a).advance
  | clear : Completes s .cls (s.setFb clearFrame).advance
  | sprite (x y : Reg) (n : BitVec 4) (f : Frame) (collision : Bool) :
      Completes s (.drw x y n) ((s.setFb f).setFlag collision).advance
  | delay (x : Reg) (b : Byte) : Completes s (.ldDtVx x) (s.setDt b).advance
  | sound (x : Reg) (b : Byte) : Completes s (.ldStVx x) (s.setSt b).advance
  | store {i} (hi : (∃ x, i = .ldBVx x) ∨ ∃ x, i = .ldMemVx x) (m : Memory) :
      Completes s i { s with mem := m }.advance
  | wait (x : Reg) : Completes s (.ldVxK x) (s.await x)

/-- The instruction records a fatal condition at its own address, and changes nothing else (R226). -/
def RecordsFatal (i : Instr) (s t : State) : Prop :=
  MayHalt i ∧ ∃ r : HaltRecord, r.addr = s.pc ∧ t = { s with halt := some r }

/-- Raising a fatal condition is recording it. -/
theorem recordsFatal_of_raiseFatal {i : Instr} {r : Reason} {w : Word} {ea : Nat} {s t : State} (hi : MayHalt i)
    (h : raiseFatal r w ea s = .next t) : RecordsFatal i s t := by
  cases h; exact ⟨hi, _, rfl, rfl⟩

/-- A store from `I` on records a fatal condition, or writes memory. -/
theorem storeAtI_cases {i : Instr} {w : Word} {bytes : List Byte} {s t : State}
    (hi : (∃ x, i = .ldBVx x) ∨ ∃ x, i = .ldMemVx x) (h : storeAtI w bytes s = .next t) :
    RecordsFatal i s t ∨ Completes s i t := by
  have hm : MayHalt i := by obtain ⟨x, rfl⟩ | ⟨x, rfl⟩ := hi <;> trivial
  unfold storeAtI at h
  split at h
  · exact .inl (recordsFatal_of_raiseFatal hm h)
  · rename_i u hw
    have hu : u = s.writeBytes s.i.toNat bytes := by
      unfold State.memWrite at hw
      split at hw <;> cases hw
      rfl
    rw [hu, State.writeBytes_frame] at h
    cases h; exact .inr (.store hi _)

/-- A read of memory that answers bytes answers as many as were asked for (R73). -/
theorem State.length_of_memRead_ok {s : State} {base n : Nat} {bytes : List Byte}
    (h : s.memRead base n = .ok bytes) : bytes.length = n := by
  unfold State.memRead at h
  split at h <;> cases h
  simp [span]

/-- An instruction records a fatal condition of its own, or completes with its writes. -/
theorem exec_cases {i : Instr} {s t : State} (h : exec i s = .next t) : RecordsFatal i s t ∨ Completes s i t := by
  cases i with
  | cls => cases h; exact .inr .clear
  | ret =>
    change execRet s = _ at h
    unfold execRet at h
    split at h
    · exact .inl (recordsFatal_of_raiseFatal trivial h)
    · rename_i hp
      rw [State.pop_frame hp] at h
      cases h; exact .inr (.ret _ _)
  | call nnn =>
    change execCall nnn s = _ at h
    unfold execCall at h
    split at h
    · exact .inl (recordsFatal_of_raiseFatal trivial h)
    · rename_i hp
      rw [State.push_frame hp] at h
      cases h; exact .inr (.call _ _ _ _)
  | drw x y n =>
    change execDrw x y n s = _ at h
    unfold execDrw at h
    split at h
    · exact .inl (recordsFatal_of_raiseFatal trivial h)
    · cases h; exact .inr (.sprite _ _ _ _ _)
  | ldVxMem x =>
    change execLdVxMem x s = _ at h
    unfold execLdVxMem at h
    split at h
    · exact .inl (recordsFatal_of_raiseFatal trivial h)
    · rename_i hr
      cases h; exact .inr (.block _ _ (State.length_of_memRead_ok hr))
  | ldBVx x => exact storeAtI_cases (.inl ⟨x, rfl⟩) h
  | ldMemVx x => exact storeAtI_cases (.inr ⟨x, rfl⟩) h
  | jp | jpV0 => cases h; exact .inr (.jump (by trivial) _)
  | seImm | sneImm | seReg | sneReg | skp | sknp => cases h; exact .inr (.skip (by trivial) _)
  | ldImm | addImm | ldReg | orReg | andReg | xorReg | ldVxDt => cases h; exact .inr (.result (by rfl) _)
  | addReg | subReg | shr | subnReg | shl => cases h; exact .inr (.flagged (by rfl) (by trivial) _ _)
  | rnd => cases h; exact .inr (.random _ _ _)
  | ldI nnn => cases h; exact .inr (.index (.inl ⟨nnn, rfl⟩) _)
  | addIVx x => cases h; exact .inr (.index (.inr (.inl ⟨x, rfl⟩)) _)
  | ldFVx x => cases h; exact .inr (.index (.inr (.inr ⟨x, rfl⟩)) _)
  | ldDtVx => cases h; exact .inr (.delay _ _)
  | ldStVx => cases h; exact .inr (.sound _ _)
  | ldVxK => cases h; exact .inr (.wait _)

/-! The general registers (R31, R32) -/

theorem State.reg_setFlag_vf (s : State) (f : Bool) : (s.setFlag f).reg 15 = flagByte f := s.reg_setReg_self _ _

theorem State.reg_setFlag_of_ne (s : State) (f : Bool) {z : Reg} (hz : z ≠ 15) : (s.setFlag f).reg z = s.reg z :=
  s.reg_setReg_of_ne _ _ _ hz

theorem flagByte_cases (f : Bool) : flagByte f = 0 ∨ flagByte f = 1 := by
  cases f
  · exact .inl rfl
  · exact .inr rfl

/-- A register a completed instruction changes is one of its destinations, or VF under a flag-writing instruction. -/
theorem Completes.reg_cases {i : Instr} {s t : State} (h : Completes s i t) (z : Reg) :
    t.reg z = s.reg z ∨ IsDestination z i ∨ z = 15 ∧ WritesFlag i := by
  cases h with
  | @result _ x hi b =>
    by_cases hz : z = x
    · subst hz; exact .inr (.inl hi)
    · exact .inl (s.reg_setReg_of_ne x z b hz)
  | @flagged _ x hi hf b f =>
    by_cases hz : z = x
    · subst hz; exact .inr (.inl hi)
    by_cases hv : z = 15
    · exact .inr (.inr ⟨hv, hf⟩)
    · exact .inl (((s.setReg x b).reg_setFlag_of_ne f hv).trans (s.reg_setReg_of_ne x z b hz))
  | random x kk b =>
    by_cases hz : z = x
    · exact .inr (.inl hz.symm)
    · exact .inl (s.reg_setReg_of_ne x z b hz)
  | block x bytes hl =>
    by_cases hz : z ≤ x
    · exact .inr (.inl hz)
    · have hlt : x.val < z.val := not_le.mp hz
      have hn : bytes[z.val]? = none := List.getElem?_eq_none (by omega)
      exact .inl ((s.reg_setRegs bytes z).trans (by rw [hn, Option.getD_none]))
  | sprite x y n f collision =>
    by_cases hv : z = 15
    · exact .inr (.inr ⟨hv, trivial⟩)
    · exact .inl ((s.setFb f).reg_setFlag_of_ne collision hv)
  | _ => exact .inl rfl

theorem exec_reg_cases {i : Instr} {s t : State} (h : exec i s = .next t) (z : Reg) :
    t.reg z = s.reg z ∨ IsDestination z i ∨ z = 15 ∧ WritesFlag i := by
  obtain ⟨-, r, -, rfl⟩ | hc := exec_cases h
  · exact .inl rfl
  · exact hc.reg_cases z

/-- A flag-writing instruction leaves 0 or 1 in VF, or it has recorded a fatal condition. -/
theorem exec_flag_cases {i : Instr} {s t : State} (h : exec i s = .next t) (hf : WritesFlag i) :
    (t.reg 15 = 0 ∨ t.reg 15 = 1) ∨ t.halt ≠ none := by
  cases i with
  | addReg | subReg | shr | subnReg | shl => cases h; exact .inl (State.reg_setFlag_vf _ _ ▸ flagByte_cases _)
  | drw x y n =>
    change execDrw x y n s = _ at h
    unfold execDrw at h
    split at h <;> cases h
    · exact .inr (by simp)
    · exact .inl (State.reg_setFlag_vf _ _ ▸ flagByte_cases _)
  | _ => cases hf

/-- Settles O56: a register that an instruction changes is a destination of it or the VF of a flag-writing one, whose
flag byte is 0 or 1. -/
theorem registersHaveAClosedListOfWriters : Obligations.RegistersHaveAClosedListOfWriters := by
  unfold Obligations.RegistersHaveAClosedListOfWriters
  intro i s t h
  refine ⟨fun z hz hne => ?_, fun hne => ?_, fun hf _ ht => ?_⟩
  · obtain he | hd | ⟨hv, -⟩ := exec_reg_cases h z
    · exact (hne he).elim
    · exact hd
    · exact (hz hv).elim
  · obtain he | hd | ⟨-, hf⟩ := exec_reg_cases h 15
    · exact (hne he).elim
    · exact .inr hd
    · exact .inl hf
  · exact (exec_flag_cases h hf).resolve_right (not_not_intro ht)

/-! The other elements (R33 to R44) -/

/-- Where an instruction leaves PC (R36, R210, R226). -/
theorem exec_pc_cases {i : Instr} {s t : State} (h : exec i s = .next t) :
    t.pc = s.pc + 2 ∨ (IsSkip i ∧ t.pc = s.pc + 4) ∨ IsJump i ∨ ((∃ x, i = .ldVxK x) ∧ t.pc = s.pc) ∨
      (MayHalt i ∧ t.pc = s.pc ∧ ∃ r, t.halt = some r ∧ r.addr = s.pc) := by
  obtain ⟨hi, r, hr, rfl⟩ | hc := exec_cases h
  · exact .inr (.inr (.inr (.inr ⟨hi, rfl, r, rfl, hr⟩)))
  cases hc with
  | skip hi taken => exact (s.skipTarget_cases taken).imp_right fun he => .inl ⟨hi, he⟩
  | jump hi a => exact .inr (.inr (.inl hi))
  | call | ret => exact .inr (.inr (.inl trivial))
  | wait x => exact .inr (.inr (.inr (.inl ⟨⟨x, rfl⟩, rfl⟩)))
  | _ => exact .inl rfl

/-- The key-wait leaves PC at its own address (R210). -/
theorem exec_keyWait_pc {x : Reg} {s t : State} (h : exec (.ldVxK x) s = .next t) : t.pc = s.pc := by
  cases h; rfl

/-- An instruction leaves `I` alone or is one of the three that write it (R33). -/
theorem exec_i_cases {i : Instr} {s t : State} (h : exec i s = .next t) :
    t.i = s.i ∨ (∃ nnn, i = .ldI nnn) ∨ (∃ x, i = .addIVx x) ∨ ∃ x, i = .ldFVx x := by
  obtain ⟨-, r, -, rfl⟩ | hc := exec_cases h
  · exact .inl rfl
  cases hc with
  | index hi => exact .inr hi
  | _ => exact .inl rfl

/-- Settles O57: an instruction that records a fatal condition writes HALT alone, and one that completes writes the
elements of its shape. -/
theorem everyElementHasAClosedListOfWriters : Obligations.EveryElementHasAClosedListOfWriters := by
  unfold Obligations.EveryElementHasAClosedListOfWriters
  intro i s t h
  refine ⟨(exec_i_cases h).resolve_left, (exec_pc_cases h).resolve_left, fun ⟨x, hx⟩ => exec_keyWait_pc (hx ▸ h), ?_⟩
  obtain ⟨hi, r, -, rfl⟩ | hc := exec_cases h
  · simp [hi]
  cases hc with
  | store hi => simp [hi]
  | _ => simp [State.setFlag, State.setResultThenFlag]

/-! MODE (R43) -/

/-- An instruction leaves MODE alone or is the key-wait. -/
theorem exec_mode_cases {i : Instr} {s t : State} (h : exec i s = .next t) :
    t.mode = s.mode ∨ ∃ x, i = .ldVxK x ∧ t = s.await x := by
  obtain ⟨-, r, -, rfl⟩ | hc := exec_cases h
  · exact .inl rfl
  cases hc with
  | wait x => exact .inr ⟨x, rfl, rfl⟩
  | _ => exact .inl rfl

/-- The state blocks at a key-wait: the word at PC is one, of the register that KREG then names, and PC stays (R210). -/
def BlocksAtKeyWait (s t : State) : Prop :=
  fetchable s.pc = true ∧ decodeWord s.fetchWord = .ok (.ldVxK t.kreg) ∧ t.mode = .blockedOnKey ∧ t.pc = s.pc

/-- A Step event leaves MODE alone or runs a key-wait. -/
theorem stepEvent_mode_cases {s t : State} (h : stepEvent s = .next t) : t.mode = s.mode ∨ BlocksAtKeyWait s t := by
  obtain ⟨-, rfl⟩ | ⟨-, -, ⟨-, h⟩ | ⟨-, -, h⟩ | ⟨hf, i, hd, h⟩⟩ := stepEvent_cases h
  · exact .inl rfl
  · cases h; exact .inl rfl
  · cases h; exact .inl rfl
  · refine (exec_mode_cases h).imp_right ?_
    rintro ⟨x, rfl, rfl⟩
    exact ⟨hf, hd, rfl, rfl⟩

/-- A step leaves MODE alone, or it is a Step that runs a key-wait, or a key press or Reset that leaves the machine
Running. -/
theorem step_mode_cases {s t : State} (h : step s = .next t) :
    t.mode = s.mode ∨ (s.StepIsNext ∧ BlocksAtKeyWait s t) ∨
      (t.mode = .running ∧
        ((∃ k es, s.pending = .setKey (some k) :: es) ∨ ∃ es, s.pending = .reset :: es)) := by
  obtain ⟨hp, h⟩ | ⟨e, es, u, hp, h, rfl⟩ := step_cases h
  · exact (stepEvent_mode_cases h).imp_right fun hb => .inl ⟨.inl hp, hb⟩
  cases e with
  | reset => cases h; exact .inr (.inr ⟨rfl, .inr ⟨es, hp⟩⟩)
  | load image =>
    obtain ⟨-, -, rfl⟩ := loadEvent_cases h
    rw [State.writeBytes_frame]; exact .inl rfl
  | loadPort index data =>
    obtain ⟨-, -, rfl⟩ := loadPortEvent_cases h
    exact .inl rfl
  | step r => exact (stepEvent_mode_cases h).imp_right fun hb => .inl ⟨.inr ⟨r, es, hp⟩, hb⟩
  | tick => cases h; exact .inl rfl
  | setKey k =>
    obtain ⟨key, rfl, -, -, hk⟩ | ⟨-, hk⟩ := setKeyEvent_cases k s
    · cases hk.symm.trans h; exact .inr (.inr ⟨rfl, .inl ⟨key, es, hp⟩⟩)
    · cases hk.symm.trans h; exact .inl rfl

/-- Settles O14: of the three ways a step can leave MODE, one blocks a running machine and one wakes a blocked one. -/
theorem modeChangesOnlyByKeyWaitKeyPressAndReset : Obligations.ModeChangesOnlyByKeyWaitKeyPressAndReset := by
  unfold Obligations.ModeChangesOnlyByKeyWaitKeyPressAndReset
  intro s t h
  obtain hm | ⟨hn, hf, hd, hm, hp⟩ | ⟨hm, he⟩ := step_mode_cases h
  · exact ⟨fun hs ht => by simp [hm, hs] at ht, fun hs ht => by simp [hm, hs] at ht⟩
  · exact ⟨fun _ _ => ⟨hn, hf, hd, hp⟩, fun _ ht => by simp [hm] at ht⟩
  · exact ⟨fun _ ht => by simp [hm] at ht, fun _ _ => he⟩

/-! What no instruction reads: ST, MODE, KREG and HALT (R39, R43, R44) -/

/-- The state with the elements that no instruction reads replaced. -/
def State.withUnread (s : State) (st : Byte) (mode : Mode) (kreg : Reg) (halt : Option HaltRecord) : State :=
  { s with st := st, mode := mode, kreg := kreg, halt := halt }

section
variable (s : State) (st : Byte) (mode : Mode) (kreg : Reg) (halt : Option HaltRecord)

theorem State.push_withUnread (a : Word) :
    (s.withUnread st mode kreg halt).push a = (s.push a).map (·.withUnread st mode kreg halt) := by
  unfold State.push State.withUnread
  split <;> rfl

theorem State.pop_withUnread :
    (s.withUnread st mode kreg halt).pop = s.pop.map fun p => (p.1, p.2.withUnread st mode kreg halt) := by
  unfold State.pop State.withUnread
  split <;> rfl

theorem State.memRead_withUnread (base n : Nat) :
    (s.withUnread st mode kreg halt).memRead base n = s.memRead base n := rfl

theorem State.writeBytes_withUnread (a : Nat) (bytes : List Byte) :
    (s.withUnread st mode kreg halt).writeBytes a bytes = (s.writeBytes a bytes).withUnread st mode kreg halt := by
  induction bytes generalizing s a with
  | nil => rfl
  | cons b bs ih => exact ih (s.writeByte a b) (a + 1)

theorem State.memWrite_withUnread (base : Nat) (bytes : List Byte) :
    (s.withUnread st mode kreg halt).memWrite base bytes =
      (s.memWrite base bytes).map (·.withUnread st mode kreg halt) := by
  unfold State.memWrite
  rw [State.writeBytes_withUnread]
  split <;> rfl

/-- The operation answers alike from the state and from the one with the unread elements replaced: it raises the same
fatal condition from both, or their next states differ as they do. -/
def RunsAlike (f : State → Result) : Prop :=
  (∃ r w ea, f s = raiseFatal r w ea s ∧
    f (s.withUnread st mode kreg halt) = raiseFatal r w ea (s.withUnread st mode kreg halt)) ∨
  ∃ t, f s = .next t ∧ f (s.withUnread st mode kreg halt) = .next (t.withUnread st mode kreg halt)

theorem storeAtI_runsAlike (w : Word) (bytes : List Byte) : RunsAlike s st mode kreg halt (storeAtI w bytes) := by
  unfold RunsAlike storeAtI
  rw [State.memWrite_withUnread, show (s.withUnread st mode kreg halt).i = s.i from rfl]
  cases s.memWrite s.i.toNat bytes with
  | error ea => exact .inl ⟨_, _, _, rfl, rfl⟩
  | ok t => exact .inr ⟨_, rfl, rfl⟩

theorem execCall_runsAlike (nnn : BitVec 12) : RunsAlike s st mode kreg halt (execCall nnn) := by
  unfold RunsAlike execCall
  rw [State.push_withUnread, show (s.withUnread st mode kreg halt).npc = s.npc from rfl]
  cases s.push s.npc with
  | none => exact .inl ⟨_, _, _, rfl, rfl⟩
  | some t => exact .inr ⟨_, rfl, rfl⟩

theorem execRet_runsAlike : RunsAlike s st mode kreg halt execRet := by
  unfold RunsAlike execRet
  rw [State.pop_withUnread]
  cases s.pop with
  | none => exact .inl ⟨_, _, _, rfl, rfl⟩
  | some p => exact .inr ⟨_, rfl, rfl⟩

theorem execDrw_runsAlike (x y : Reg) (n : BitVec 4) : RunsAlike s st mode kreg halt (execDrw x y n) := by
  unfold RunsAlike execDrw
  rw [State.memRead_withUnread, show (s.withUnread st mode kreg halt).i = s.i from rfl]
  cases s.memRead s.i.toNat n.toNat with
  | error ea => exact .inl ⟨_, _, _, rfl, rfl⟩
  | ok sprite => exact .inr ⟨_, rfl, rfl⟩

theorem execLdVxMem_runsAlike (x : Reg) : RunsAlike s st mode kreg halt (execLdVxMem x) := by
  unfold RunsAlike execLdVxMem
  rw [State.memRead_withUnread, show (s.withUnread st mode kreg halt).i = s.i from rfl]
  cases s.memRead s.i.toNat (x.val + 1) with
  | error ea => exact .inl ⟨_, _, _, rfl, rfl⟩
  | ok bytes => exact .inr ⟨_, rfl, rfl⟩

/-- An instruction answers alike, but for the two that write one of the unread elements in completing. -/
theorem exec_runsAlike_or (i : Instr) :
    (∃ x, i = .ldStVx x) ∨ (∃ x, i = .ldVxK x) ∨ RunsAlike s st mode kreg halt (exec i) := by
  cases i with
  | ldStVx x => exact .inl ⟨x, rfl⟩
  | ldVxK x => exact .inr (.inl ⟨x, rfl⟩)
  | call => exact .inr (.inr (execCall_runsAlike ..))
  | ret => exact .inr (.inr (execRet_runsAlike ..))
  | drw => exact .inr (.inr (execDrw_runsAlike ..))
  | ldVxMem => exact .inr (.inr (execLdVxMem_runsAlike ..))
  | ldBVx | ldMemVx => exact .inr (.inr (storeAtI_runsAlike ..))
  | _ => exact .inr (.inr (.inr ⟨_, rfl, rfl⟩))

end

/-- Settles O58: an instruction answers alike from both states, or writes ST, MODE and KREG from what both hold. -/
theorem noInstructionReadsStModeKregOrHalt : Obligations.NoInstructionReadsStModeKregOrHalt := by
  unfold Obligations.NoInstructionReadsStModeKregOrHalt
  intro i s t st mode kreg halt h
  obtain ⟨x, rfl⟩ | ⟨x, rfl⟩ | ⟨r, w, ea, hs, hu⟩ | ⟨v, hs, hu⟩ := exec_runsAlike_or s st mode kreg halt i
  · cases h; exact ⟨_, rfl, rfl, .inr rfl, .inl rfl, .inl rfl, .inl rfl⟩
  · cases h; exact ⟨_, rfl, rfl, .inl rfl, .inr rfl, .inr rfl, .inl rfl⟩
  · cases hs.symm.trans h; exact ⟨_, hu, rfl, .inl rfl, .inl rfl, .inl rfl, .inr rfl⟩
  · cases hs.symm.trans h; exact ⟨_, hu, rfl, .inl rfl, .inl rfl, .inl rfl, .inl rfl⟩

/-! The fetch check, the reset state and the outputs (R35, R46, R47) -/

/-- With nothing scheduled, a running machine at a PC that fails the fetch check records that PC (R35, R222). -/
theorem step_of_bad_pc {s : State} (hr : s.Ready) (hf : fetchable s.pc = false) :
    step s =
      .next { s with boot := .booted, halt := some ⟨.outOfRangeAccess, 0x0000, s.pc, s.pc.setWidth 17⟩ } := by
  obtain ⟨hp, hh, hm⟩ := hr
  rw [step_of_nil hp, stepEvent_of_bad_pc hh hm hf, raiseFatal_eq, BitVec.ofNat_toNat]
  rfl

/-- Settles O8: a jump writes PC alone, so the machine is still ready and the Step after it fails the fetch check. -/
theorem fetchCheckGuardsThePc : Obligations.FetchCheckGuardsThePc := by
  unfold Obligations.FetchCheckGuardsThePc
  refine ⟨fetchable_iff, fun s => step_of_bad_pc, fun s nnn hr hf => ⟨_, rfl, rfl, ?_⟩⟩
  have hw : (nnn.setWidth 16).setWidth 17 = nnn.setWidth 17 := BitVec.setWidth_setWidth (by decide)
  exact hw ▸ step_of_bad_pc (s := { s with pc := nnn.setWidth 16 }) hr hf

/-- With no byte written, memory reads as `GLYPH_ROM` in the glyph region and as `RAM_INIT` above it (R79, R262). -/
theorem State.readByte_of_mem_nil {s : State} (hm : s.mem = []) (a : Nat) :
    s.readByte a = unlistedByte s.glyphRom s.resets a := by
  unfold State.readByte
  rw [hm]
  rfl

theorem unlistedByte_glyph (rom : Vector Byte 80) (resets : Nat) (a : Fin 80) : unlistedByte rom resets a = rom[a] :=
  dif_pos a.isLt

theorem unlistedByte_ram (rom : Vector Byte 80) (resets : Nat) {a : Nat} (ha : 0x50 ≤ a) :
    unlistedByte rom resets a = Config.ramInit resets a := dif_neg (Nat.not_lt.mpr ha)

/-- Every pixel of a cleared display is off (R185). -/
theorem pixel_clearFrame (r : Fin 32) (c : Fin 64) : pixel clearFrame r c = false := by
  simp [pixel, clearFrame]

theorem State.reg_reset (z : Reg) : State.reset.reg z = 0x00 := by
  simp [State.reg, State.reset]

/-- Settles O20: after Reset memory lists nothing, so it reads as its unwritten bytes; the other values are fields. -/
theorem resetStateHasTheSpecsValues : Obligations.ResetStateHasTheSpecsValues := by
  unfold Obligations.ResetStateHasTheSpecsValues
  refine ⟨State.reg_reset, rfl, rfl, rfl, rfl, rfl, rfl, rfl, rfl, rfl, rfl, pixel_clearFrame, fun rom a => ?_,
    fun a ha _ => ?_⟩
  · exact (State.readByte_of_mem_nil rfl a).trans (unlistedByte_glyph rom _ a)
  · exact (State.readByte_of_mem_nil rfl a).trans (unlistedByte_ram _ _ ha)

/-- Settles O59: after Reset memory lists nothing, and the machine is neither halted nor blocked. -/
theorem invariantHoldsAtReset : Obligations.InvariantHoldsAtReset where
  mem_wf := rfl
  boot_idle _ := ⟨rfl, rfl⟩
  halted_running _ := rfl
  halted_truthful _ h := by cases h
  blocked_at_wait h := by cases h

theorem State.sound_iff (s : State) : s.sound = true ↔ 0 < s.st.toNat := by
  unfold State.sound
  rw [bne_iff_ne, ne_eq, ← BitVec.toNat_inj]
  exact Nat.pos_iff_ne_zero.symm

theorem State.halted_iff (s : State) : s.halted = true ↔ s.halt ≠ none := Option.isSome_iff_ne_none

theorem State.haltPort_of_halt {s : State} {r : HaltRecord} (h : s.halt = some r) :
    s.haltPort = some (r.reason.code, r.word, r.addr, r.ea) := by
  unfold State.haltPort
  rw [h]
  rfl

theorem State.blocked_iff (s : State) : s.blocked = true ↔ s.mode = .blockedOnKey := beq_iff_eq

/-- Bit `63 - c` of a row read through the display port is the pixel in column `c` (R241). -/
theorem State.getLsbD_fbRow (s : State) (sel : BitVec 5) (c : Fin 64) :
    (s.fbRow sel).getLsbD (63 - c.val) = pixel s.fb ⟨sel.toNat, sel.isLt⟩ c := by
  unfold pixel State.fbRow
  rw [BitVec.getMsbD_eq_getLsbD, decide_eq_true c.isLt, Bool.true_and]
  rfl

/-- Settles O22: each output is the element it names, or a test of it. -/
theorem outputsAreFunctionsOfTheState : Obligations.OutputsAreFunctionsOfTheState := by
  unfold Obligations.OutputsAreFunctionsOfTheState
  exact fun s => ⟨s.sound_iff, rfl, s.halted_iff, fun _ => State.haltPort_of_halt, s.blocked_iff, s.getLsbD_fbRow⟩

end Sys2Proof.Machine

/-! SUPPORT. The encoding undoes the decoder: a word is spelled by the fields that the decoder reads (R102 to R106). -/

namespace Sys2Proof

section
variable {w : Word} {op : BitVec 4}

theorem formatA_eq_of_fields {nnn : BitVec 12} (hop : opField w = op.toNat) (hn : (nnnField w).toNat = nnn.toNat) :
    formatA op nnn = w := by
  apply BitVec.eq_of_toNat_eq
  rw [opField_eq] at hop
  rw [toNat_nnnField] at hn
  rw [toNat_formatA]
  omega

theorem formatXK_eq_of_fields {kk : Byte} (hop : opField w = op.toNat) (hk : (kkField w).toNat = kk.toNat) :
    formatXK op (xField w) kk = w := by
  apply BitVec.eq_of_toNat_eq
  rw [opField_eq] at hop
  rw [toNat_kkField] at hk
  rw [toNat_formatXK, val_xField]
  omega

theorem formatXYN_eq_of_fields {n : BitVec 4} (hop : opField w = op.toNat) (hn : (nField w).toNat = n.toNat) :
    formatXYN op (xField w) (yField w) n = w := by
  apply BitVec.eq_of_toNat_eq
  rw [opField_eq] at hop
  rw [toNat_nField] at hn
  rw [toNat_formatXYN, val_xField, val_yField]
  omega

end

section
variable {w : Word} {i : Instr}

theorem encode_of_decodeFamily0 (hop : opField w = 0x0) (h : decodeFamily0 w = some i) : encode i = w := by
  unfold decodeFamily0 at h
  split at h <;> cases h
  · exact formatA_eq_of_fields (op := 0x0) (nnn := 0x0E0) hop ‹_›
  · exact formatA_eq_of_fields (op := 0x0) (nnn := 0x0EE) hop ‹_›

theorem encode_of_decodeFamily8 (hop : opField w = 0x8) (h : decodeFamily8 w = some i) : encode i = w := by
  unfold decodeFamily8 at h
  split at h <;> cases h <;> exact formatXYN_eq_of_fields hop ‹_›

theorem encode_of_decodeFamilyE (hop : opField w = 0xE) (h : decodeFamilyE w = some i) : encode i = w := by
  unfold decodeFamilyE at h
  split at h <;> cases h <;> exact formatXK_eq_of_fields hop ‹_›

theorem encode_of_decodeFamilyF (hop : opField w = 0xF) (h : decodeFamilyF w = some i) : encode i = w := by
  unfold decodeFamilyF at h
  split at h <;> cases h <;> exact formatXK_eq_of_fields hop ‹_›

/-- Families 5 and 9 admit the low nibble 0 only (R105). -/
theorem decodeZeroNibble_eq_some {j : Instr} (h : decodeZeroNibble w j = some i) :
    (nField w).toNat = 0x0 ∧ j = i := by
  unfold decodeZeroNibble at h
  split at h
  · exact ⟨‹_›, Option.some.inj h⟩
  · cases h

theorem encode_of_selectInstr (h : selectInstr w = some i) : encode i = w := by
  unfold selectInstr at h
  split at h
  case h_1 hop => exact encode_of_decodeFamily0 hop h
  case h_9 hop => exact encode_of_decodeFamily8 hop h
  case h_15 hop => exact encode_of_decodeFamilyE hop h
  case h_16 hop => exact encode_of_decodeFamilyF hop h
  case h_6 hop | h_10 hop =>
    obtain ⟨hn, rfl⟩ := decodeZeroNibble_eq_some h
    exact formatXYN_eq_of_fields hop hn
  case h_2 hop | h_3 hop | h_11 hop | h_12 hop => cases h; exact formatA_eq_of_fields hop rfl
  case h_4 hop | h_5 hop | h_7 hop | h_8 hop | h_13 hop => cases h; exact formatXK_eq_of_fields hop rfl
  case h_14 hop => cases h; exact formatXYN_eq_of_fields hop rfl
  case h_17 => cases h

/-- No bit of a word is lost in decoding it. -/
theorem encode_of_decodeWord_ok (h : decodeWord w = .ok i) : encode i = w :=
  encode_of_selectInstr (decodeWord_eq_ok_iff.mp h)

end

end Sys2Proof

/-! SUPPORT. The invariant of the machine: how a state comes to meet it, and that every step keeps it. -/

namespace Sys2Proof.Machine

section
variable {s : State}

/-- A machine neither halted nor blocked has nothing to show but its memory. -/
theorem State.Inv.of_idle (hw : Memory.wf s.mem = true) (hh : s.halt = none) (hm : s.mode = .running) : s.Inv where
  mem_wf := hw
  boot_idle _ := ⟨hh, hm⟩
  halted_running _ := hm
  halted_truthful r h := by rw [hh] at h; cases h
  blocked_at_wait h := by rw [hm] at h; cases h

/-- A running machine that records what is true of it. -/
theorem State.Inv.of_record {r : HaltRecord} (hw : Memory.wf s.mem = true) (hb : s.boot = .booted)
    (hm : s.mode = .running) (hr : r.Truthful s) : State.Inv { s with halt := some r } where
  mem_wf := hw
  boot_idle h := (h hb).elim
  halted_running _ := hm
  halted_truthful _ h := Option.some.inj h ▸ hr
  blocked_at_wait h := by rw [show s.mode = .blockedOnKey from h] at hm; cases hm

/-- A machine that blocks at the key-wait it fetched. -/
theorem State.Inv.of_await {x : Reg} (hw : Memory.wf s.mem = true) (hb : s.boot = .booted) (hh : s.halt = none)
    (hf : fetchable s.pc = true) (hd : decodeWord s.fetchWord = .ok (.ldVxK x)) : (s.await x).Inv where
  mem_wf := hw
  boot_idle h := (h hb).elim
  halted_running h := (h hh).elim
  halted_truthful r h := by rw [s.await_halt, hh] at h; cases h
  blocked_at_wait _ := ⟨hf, hd⟩

/-- The invariant does not read the timers and KEY, and asks nothing of `boot` once the boot protocol is over. -/
theorem State.Inv.booted (hs : s.Inv) (dt st : Byte) (key : Option Key) :
    State.Inv { s with dt := dt, st := st, key := key, boot := .booted } where
  mem_wf := hs.mem_wf
  boot_idle h := (h rfl).elim
  halted_running := hs.halted_running
  halted_truthful := hs.halted_truthful
  blocked_at_wait := hs.blocked_at_wait

/-- The invariant does not read the schedule. -/
theorem State.Inv.withPending (hs : s.Inv) (es : List Event) : State.Inv { s with pending := es } where
  mem_wf := hs.mem_wf
  boot_idle := hs.boot_idle
  halted_running := hs.halted_running
  halted_truthful := hs.halted_truthful
  blocked_at_wait := hs.blocked_at_wait

/-- An offending address fits the record's 17 bits (R44). -/
theorem OutOfRangeCause.toNat_ofNat {i : Instr} {ea : Nat} (h : OutOfRangeCause i s ea) :
    (BitVec.ofNat 17 ea).toNat = ea := by
  have hi := s.i.isLt
  have hea : ea = firstBadRead s.i.toNat ∨ ea = firstBadWrite s.i.toNat := by
    cases i with
    | drw | ldVxMem => exact .inl h.2
    | ldBVx | ldMemVx => exact .inr h.2
    | _ => exact h.elim
  rw [BitVec.toNat_ofNat]
  apply Nat.mod_eq_of_lt
  obtain rfl | rfl := hea
  · unfold firstBadRead; omega
  · unfold firstBadWrite; split <;> omega

end

section
variable {i : Instr} {s t : State}

/-- The fetched instruction keeps the invariant: it leaves the machine idle, blocks it at itself, or records a fatal
condition whose word, its own encoding, is the word fetched. -/
theorem exec_inv (hw : Memory.wf t.mem = true) (hb : s.boot = .booted) (hh : s.halt = none) (hm : s.mode = .running)
    (hf : fetchable s.pc = true) (hd : decodeWord s.fetchWord = .ok i) (h : exec i s = .next t) : t.Inv := by
  obtain ht | ⟨r, ea, rfl, hcause⟩ := exec_halt_cases h
  · obtain htm | ⟨x, rfl, rfl⟩ := exec_mode_cases h
    · exact .of_idle hw (ht.trans hh) (htm.trans hm)
    · exact .of_await hw hb hh hf hd
  · have he : encode i = s.fetchWord := encode_of_decodeWord_ok hd
    have hde : decodeWord (encode i) = .ok i := he ▸ hd
    refine .of_record hw hb hm ⟨rfl, ?_⟩
    obtain ⟨rfl, rfl, hsp, nnn, rfl⟩ | ⟨rfl, rfl, hsp, rfl⟩ | ⟨rfl, hc⟩ := hcause
    · exact ⟨rfl, hsp, he, nnn, hde⟩
    · exact ⟨rfl, hsp, he, hde⟩
    · exact .inr ⟨hf, he, i, hde, hc.toNat_ofNat.symm ▸ hc⟩

theorem stepEvent_inv (hs : s.Inv) (hw : Memory.wf t.mem = true) (h : stepEvent s = .next t) : t.Inv := by
  obtain ⟨-, rfl⟩ | ⟨hh, hm, ⟨hf, h⟩ | ⟨hf, hd, h⟩ | ⟨hf, i, hd, h⟩⟩ := stepEvent_cases h
  · exact hs
  · cases h
    have hea : (BitVec.ofNat 17 s.pc.toNat).toNat = s.pc.toNat := by
      have := s.pc.isLt
      rw [BitVec.toNat_ofNat]; omega
    exact .of_record (s := s.endBoot) hw rfl hm ⟨rfl, .inl ⟨rfl, hf, hea⟩⟩
  · cases h
    exact .of_record (s := s.endBoot) hw rfl hm ⟨rfl, rfl, hf, rfl, hd⟩
  · exact exec_inv (s := s.endBoot) hw rfl hh hm hf hd h

theorem setKeyEvent_inv {k : Option Key} (hs : s.Inv) (h : setKeyEvent k s = .next t) : t.Inv := by
  obtain ⟨key, -, -, hh, hk⟩ | ⟨-, hk⟩ := setKeyEvent_cases k s
  · cases hk.symm.trans h
    exact .of_idle hs.mem_wf hh rfl
  · cases hk.symm.trans h
    exact hs.booted s.dt s.st k

/-- Every host event keeps the invariant. A Load finds the machine neither halted nor blocked, so no record and no
key-wait depends on the bytes it writes (R237). -/
theorem hostEvent_inv {e : Event} (hs : s.Inv) (hw : Memory.wf t.mem = true) (h : hostEvent e s = .next t) : t.Inv := by
  cases e with
  | reset => cases h; exact .of_idle hw rfl rfl
  | load image =>
    obtain ⟨hb, -, rfl⟩ := loadEvent_cases h
    obtain ⟨hh, hm⟩ := hs.boot_idle (by rw [hb]; exact Boot.noConfusion)
    rw [State.writeBytes_frame] at hw ⊢
    exact .of_idle hw hh hm
  | loadPort index data =>
    obtain ⟨hb, -, rfl⟩ := loadPortEvent_cases h
    obtain ⟨hh, hm⟩ := hs.boot_idle hb
    exact .of_idle hw hh hm
  | step r => exact stepEvent_inv hs hw h
  | tick => cases h; exact hs.booted _ _ s.key
  | setKey k => exact setKeyEvent_inv hs h

end

/-- Settles O60: every step keeps memory canonical, and the event it delivers keeps the rest of the invariant. -/
theorem everyStepKeepsTheInvariant : Obligations.EveryStepKeepsTheInvariant := by
  unfold Obligations.EveryStepKeepsTheInvariant
  intro s t hs h
  have hw : Memory.wf t.mem = true := step_keeps_wf hs.mem_wf h
  obtain ⟨-, h⟩ | ⟨e, es, u, -, hu, rfl⟩ := step_cases h
  · exact stepEvent_inv hs hw h
  · exact (hostEvent_inv (t := u) hs hw hu).withPending es

end Sys2Proof.Machine

/-! SUPPORT. What a block of writes leaves in memory, and the memory statements that follow from it. -/

namespace Sys2Proof.Machine

section
variable {s t : State} {a k : Nat} {bytes : List Byte}

theorem State.readByte_writeBytes_of_getElem? {j : Nat} {b : Byte} (h : bytes[j]? = some b) :
    (s.writeBytes a bytes).readByte (a + j) = b := by
  rw [State.readByte_writeBytes, if_pos (Nat.le_add_right a j), Nat.add_sub_cancel_left, h, Option.getD_some]

/-- A block of writes changes no byte outside the block. -/
theorem State.mem_block_of_readByte_writeBytes_ne (h : (s.writeBytes a bytes).readByte k ≠ s.readByte k) :
    a ≤ k ∧ k < a + bytes.length := by
  rw [State.readByte_writeBytes] at h
  split at h
  · refine ⟨‹_›, ?_⟩
    by_contra hk
    rw [List.getElem?_eq_none (by omega), Option.getD_none] at h
    exact h rfl
  · exact (h rfl).elim

theorem State.readByte_of_mem_writeBytes (hm : t.mem = (s.writeBytes a bytes).mem) (hr : t.resets = s.resets)
    (hg : t.glyphRom = s.glyphRom) (k : Nat) : t.readByte k = (s.writeBytes a bytes).readByte k := by
  rw [State.writeBytes_frame]
  exact State.readByte_congr (s := { s with mem := (s.writeBytes a bytes).mem }) hm hr hg k

theorem State.pc_writeBytes : (s.writeBytes a bytes).pc = s.pc := by
  rw [State.writeBytes_frame]

/-- A word's bytes in memory order, written at PC, are fetched as that word (R72). -/
theorem State.fetchWord_writeBytes_bytesOfWord (s : State) (w : Word) :
    (s.writeBytes s.pc.toNat (bytesOfWord w)).fetchWord = w := by
  have hhi : (s.writeBytes s.pc.toNat (bytesOfWord w)).readByte s.pc.toNat = w.extractLsb' 8 8 :=
    State.readByte_writeBytes_of_getElem? (j := 0) rfl
  have hlo : (s.writeBytes s.pc.toNat (bytesOfWord w)).readByte (s.pc.toNat + 1) = w.extractLsb' 0 8 :=
    State.readByte_writeBytes_of_getElem? (j := 1) rfl
  unfold State.fetchWord
  rw [State.pc_writeBytes, hhi, hlo, wordOfBytes_bytesOfWord]

end

/-- Settles O50: the byte at PC counts 256 times, and the two bytes of a word are read back as they were written. -/
theorem fetchIsBigEndian : Obligations.FetchIsBigEndian := by
  unfold Obligations.FetchIsBigEndian
  refine fun s => ⟨?_, s.fetchWord_writeBytes_bytesOfWord⟩
  rw [s.toNat_fetchWord, Nat.mul_comm]

/-- Settles O51: the read is in range exactly when its last address is, and `max a 0x1000` is the first bad one. -/
theorem memReadChecksThenReads : Obligations.MemReadChecksThenReads := by
  unfold Obligations.MemReadChecksThenReads
  intro s a n hn
  refine ⟨fun hle => ?_, fun hlt => ?_⟩
  · have hr : ReadsInRange a n := .inr (by omega)
    exact ⟨_, s.memRead_ok a n hr, by simp [span], fun j hj => getElem_span_map s a n j hj⟩
  · have hr : ¬ ReadsInRange a n := by unfold ReadsInRange; omega
    exact s.memRead_error a n hr

/-- Settles O52: one byte is a block of length one, whose first bad address can only be its own. -/
theorem memWriteChangesOneByte : Obligations.MemWriteChangesOneByte := by
  unfold Obligations.MemWriteChangesOneByte
  intro s a b
  have herr (hr : ¬ WritesInRange a 1) (ha : firstBadWrite a = a) : s.memWrite a [b] = .error a :=
    (s.memWrite_error a [b] (List.cons_ne_nil b []) hr).trans (congrArg _ ha)
  refine ⟨fun hhi => herr ?_ ?_, fun hlo => herr ?_ ?_, fun hlo hhi => ?_⟩
  · unfold WritesInRange; omega
  · unfold firstBadWrite; rw [if_neg (by omega)]; omega
  · unfold WritesInRange; omega
  · unfold firstBadWrite; rw [if_pos (by omega)]
  · have hr : WritesInRange a [b].length := ⟨hlo, by rw [List.length_singleton]; omega⟩
    refine ⟨s.writeByte a b, s.memWrite_ok a [b] hr, rfl, ?_, fun k hk => ?_⟩
    · rw [State.readByte_writeByte, if_pos rfl]
    · rw [State.readByte_writeByte, if_neg hk]

/-- Settles O54: outside a Reset, a byte that changes lies in the block that one of the writers of R81 wrote. -/
theorem memoryChangesOnlyWhereItsWritersWrite : Obligations.MemoryChangesOnlyWhereItsWritersWrite := by
  unfold Obligations.MemoryChangesOnlyWhereItsWritersWrite
  intro s t a h hne
  obtain ⟨hg, ⟨hreset, -⟩ | ⟨hr, hm | ⟨base, bytes, hw, hm⟩⟩⟩ := step_memory_cases h
  · exact .inl hreset
  · exact (hne (State.readByte_congr hm hr hg a)).elim
  rw [State.readByte_of_mem_writeBytes hm hr hg] at hne
  obtain ⟨hlo, hhi⟩ := State.mem_block_of_readByte_writeBytes_ne hne
  cases hw with
  | load hp _ => exact .inr (.inl ⟨_, _, hp, hlo, hhi⟩)
  | loadPort hp _ =>
    rw [List.length_singleton] at hhi
    exact .inr (.inr (.inl ⟨_, _, _, hp, Nat.le_antisymm (Nat.le_of_lt_succ hhi) hlo⟩))
  | @store i _ hn hd hs hrange =>
    obtain ⟨h50, h1000⟩ := hrange
    refine .inr (.inr (.inr ⟨hn, by omega, by omega, ?_⟩))
    cases i with
    | ldBVx x =>
      cases hs
      exact .inl ⟨x, hd, hlo, Nat.le_of_lt_succ hhi⟩
    | ldMemVx x =>
      cases hs
      rw [s.length_regsThrough] at hhi
      exact .inr ⟨x, hd, hlo, Nat.le_of_lt_succ hhi⟩
    | _ => exact hs.elim

/-! Stored code (R86) -/

theorem State.endBoot_of_booted {s : State} (h : s.boot = .booted) : s.endBoot = s := by
  cases s; cases h; rfl

/-- A ready machine runs the instruction it fetches (R221). -/
theorem step_of_ready {s : State} {i : Instr} (hr : s.Ready) (hf : fetchable s.pc = true)
    (hd : decodeWord s.fetchWord = .ok i) : step s = exec i s.endBoot := by
  obtain ⟨hp, hh, hm⟩ := hr
  rw [step_of_nil hp, stepEvent_of_ok hh hm hf hd]

/-- A bulk store to writable addresses leaves `V[z]` at `I + z` and changes memory and PC only (R199). -/
theorem exec_ldMemVx_of_inRange {x : Reg} {s t : State} (hr : WritesInRange s.i.toNat (x.val + 1))
    (h : exec (.ldMemVx x) s = .next t) :
    t = { s with mem := t.mem, pc := s.pc + 2 } ∧ ∀ z ≤ x, t.readByte (s.i.toNat + z.val) = s.reg z := by
  rw [← s.length_regsThrough x] at hr
  obtain rfl : (s.writeBytes s.i.toNat (s.regsThrough x)).advance = t :=
    Host.Outcome.next.inj ((storeAtI_ok _ _ _ hr).symm.trans h)
  refine ⟨?_, fun z hz => State.readByte_writeBytes_of_getElem? (s.getElem_regsThrough x z hz)⟩
  rw [State.writeBytes_frame]
  rfl

/-- Settles O55: the store leaves the machine ready at PC + 2, where it now fetches the two registers' bytes. -/
theorem storedCodeRunsAtOnce : Obligations.StoredCodeRunsAtOnce := by
  unfold Obligations.StoredCodeRunsAtOnce
  intro s t x p q i hready hf hd hlo hhi hp hq hpa hqa hi h
  rw [step_of_ready hready hf hd] at h
  obtain ⟨ht, hread⟩ := exec_ldMemVx_of_inRange (s := s.endBoot) ⟨hlo, by rw [State.endBoot_i]; omega⟩ h
  have htready : t.Ready := by rw [ht]; exact hready
  have htboot : t.boot = .booted := by rw [ht]; rfl
  have hqx : q.val ≤ x.val := hq
  have hpc : t.pc.toNat = s.pc.toNat + 2 := by
    have htpc : t.pc = s.pc + 2 := by rw [ht]; rfl
    bv_omega
  have htf : fetchable t.pc = true := by
    rw [fetchable_iff] at hf ⊢; omega
  have htw : t.fetchWord = wordOfBytes (s.reg p) (s.reg q) := by
    unfold State.fetchWord
    rw [hpc, ← hpa, show s.i.toNat + p.val + 1 = s.i.toNat + q.val by omega]
    exact congrArg₂ wordOfBytes (hread p hp) (hread q hq)
  rw [step_of_ready htready htf (htw ▸ hi), State.endBoot_of_booted htboot]

end Sys2Proof.Machine

/-! SUPPORT. The decoder undoes the encoding; a word is legal, decodes and selects a row of the opcode map all by one
test of its family's secondary field (R102 to R106); and the counts of illegal words that follow (R107). -/

namespace Sys2Proof

open Machine (LegalWord)

theorem selectInstr_encode (i : Instr) : selectInstr (encode i) = some i := by
  cases i with
  | cls | ret => rfl
  | seReg | sneReg => simp [encode, selectInstr, decodeZeroNibble]
  | ldReg | orReg | andReg | xorReg | addReg | subReg | shr | subnReg | shl =>
    simp [encode, selectInstr, decodeFamily8]
  | skp | sknp => simp [encode, selectInstr, decodeFamilyE]
  | ldVxDt | ldVxK | ldDtVx | ldStVx | addIVx | ldFVx | ldBVx | ldMemVx | ldVxMem =>
    simp [encode, selectInstr, decodeFamilyF]
  | _ => simp [encode, selectInstr]

@[simp] theorem decodeWord_encode (i : Instr) : decodeWord (encode i) = .ok i :=
  decodeWord_of_some (selectInstr_encode i)

/-- Settles O2: the two bytes spell the encoding again, and its fields select the instruction. -/
theorem decodeUndoesEncode : Obligations.DecodeUndoesEncode := by
  unfold Obligations.DecodeUndoesEncode
  intro i rest
  change decode (_ :: _ :: rest) = _
  rw [decode_cons, wordOfBytes_bytesOfWord, decodeWord_encode]
  rfl

/-- Settles O3: the fields that the decoder reads, fixed ones and operands, spell the whole word. -/
theorem encodeUndoesDecode : Obligations.EncodeUndoesDecode := by
  unfold Obligations.EncodeUndoesDecode
  intro w i h
  exact encode_of_decodeWord_ok h

/-- Settles O1: each legal word spells the encoding of its instruction, and the others select none. -/
theorem fewWordsDecodeAsThePatternsSay : Obligations.FewWordsDecodeAsThePatternsSay :=
  ⟨decodeWord_encode .cls, decodeWord_encode .ret, decodeWord_encode (.jp 0xABC),
    decodeWord_encode (.seImm 1 0x11), decodeWord_encode (.seReg 1 2), decodeWord_encode (.ldImm 3 0xAB),
    decodeWord_encode (.addReg 1 2), decodeWord_encode (.shl 1 2), decodeWord_encode (.ldI 0x123),
    decodeWord_encode (.rnd 1 0x0F), decodeWord_encode (.drw 0 1 2), decodeWord_encode (.skp 1),
    decodeWord_encode (.ldVxK 3), decodeWord_encode (.ldVxMem 15),
    decodeWord_of_none rfl, decodeWord_of_none rfl, decodeWord_of_none rfl, rfl⟩

/-- The secondary field of a word is what it leaves modulo this number: the low 12 bits in family 0, the low nibble in
5, 8 and 9, the low byte in E and F (R105). The other families have none, and leave 0. -/
def secondaryModulus : Nat → Nat
  | 0x0 => 4096
  | 0x5 | 0x8 | 0x9 => 16
  | 0xE | 0xF => 256
  | _ => 1

/-- The values of the secondary field that are instructions of the family (R105). -/
def secondaryCodes : Nat → List Nat
  | 0x0 => [0x0E0, 0x0EE]
  | 0x8 => [0, 1, 2, 3, 4, 5, 6, 7, 0xE]
  | 0xE => [0x9E, 0xA1]
  | 0xF => [0x07, 0x0A, 0x15, 0x18, 0x1E, 0x29, 0x33, 0x55, 0x65]
  | _ => [0]

theorem opField_lt (w : Word) : opField w < 16 := BitVec.isLt _

section
variable (w : Word)

theorem legalWord_iff : LegalWord w ↔ w.toNat % secondaryModulus (opField w) ∈ secondaryCodes (opField w) := by
  have hop := opField_lt w
  have hw : w.toNat = opField w * 4096 + w.toNat % 4096 := by rw [opField_eq]; omega
  simp only [LegalWord, ← BitVec.toNat_inj, ← opField_eq]
  generalize opField w = op at *
  interval_cases op <;> simp [secondaryModulus, secondaryCodes] <;> omega

theorem isSome_decodeFamily0 : (decodeFamily0 w).isSome ↔ w.toNat % 4096 ∈ secondaryCodes 0x0 := by
  rw [decodeFamily0, toNat_nnnField]
  split <;> simp_all [secondaryCodes]

theorem isSome_decodeFamily8 : (decodeFamily8 w).isSome ↔ w.toNat % 16 ∈ secondaryCodes 0x8 := by
  rw [decodeFamily8, toNat_nField]
  split <;> simp_all [secondaryCodes]

theorem isSome_decodeFamilyE : (decodeFamilyE w).isSome ↔ w.toNat % 256 ∈ secondaryCodes 0xE := by
  rw [decodeFamilyE, toNat_kkField]
  split <;> simp_all [secondaryCodes]

theorem isSome_decodeFamilyF : (decodeFamilyF w).isSome ↔ w.toNat % 256 ∈ secondaryCodes 0xF := by
  rw [decodeFamilyF, toNat_kkField]
  split <;> simp_all [secondaryCodes]

theorem isSome_decodeZeroNibble (i : Instr) : (decodeZeroNibble w i).isSome ↔ w.toNat % 16 ∈ [0] := by
  rw [decodeZeroNibble, toNat_nField]
  split <;> simp_all

/-- The decoder makes the test by which R105 lists the legal words. -/
theorem isSome_selectInstr_iff : (selectInstr w).isSome ↔ LegalWord w := by
  rw [legalWord_iff, selectInstr]
  split
  case h_1 hop => rw [hop]; exact isSome_decodeFamily0 w
  case h_6 hop | h_10 hop => rw [hop]; exact isSome_decodeZeroNibble w _
  case h_9 hop => rw [hop]; exact isSome_decodeFamily8 w
  case h_15 hop => rw [hop]; exact isSome_decodeFamilyE w
  case h_16 hop => rw [hop]; exact isSome_decodeFamilyF w
  case h_17 => have := opField_lt w; interval_cases opField w <;> contradiction
  all_goals next hop => simp [hop, secondaryModulus, secondaryCodes, Nat.mod_one]

variable {w}

theorem exists_decodeWord_ok_iff : (∃ i, decodeWord w = .ok i) ↔ LegalWord w := by
  simp only [decodeWord_eq_ok_iff, ← Option.isSome_iff_exists, isSome_selectInstr_iff]

theorem decodeWord_of_not_legal (h : ¬ LegalWord w) : decodeWord w = .error (.illegal w) := by
  rw [← isSome_selectInstr_iff, Option.not_isSome_iff_eq_none] at h
  exact decodeWord_of_none h

/-! The rows of the opcode map -/

theorem encode_selects_one_row (i : Instr) : (opcodeMap.filter fun row => row.selects (encode i)).length = 1 := by
  cases i with
  | cls | ret => decide
  | jp nnn | call nnn | ldI nnn | jpV0 nnn => exact Laws.selectsOne_formatA _ (by decide) nnn
  | seImm x kk | sneImm x kk | ldImm x kk | addImm x kk | rnd x kk =>
    exact Laws.selectsOne_formatXK _ (by decide) x kk
  | drw x y n => exact Laws.EncodeSelectsOneRow.drw x y n
  | seReg x y | sneReg x y | ldReg x y | orReg x y | andReg x y | xorReg x y | addReg x y | subReg x y | shr x y
  | subnReg x y | shl x y => exact Laws.selectsOne_formatXY _ _ (by decide) x y
  | skp x | sknp x | ldVxDt x | ldVxK x | ldDtVx x | ldStVx x | addIVx x | ldFVx x | ldBVx x | ldMemVx x
  | ldVxMem x =>
    exact Laws.selectsOne_formatX _ _ (by decide) x

/-- Every row masks the primary opcode and the secondary field of its family, and holds one of the family's codes. -/
theorem opcodeMap_by_family : ∀ row ∈ opcodeMap,
    (row.mask, secondaryModulus (opField row.bits)) ∈
      [(0xF000#16, 1), (0xF00F#16, 16), (0xF0FF#16, 256), (0xFFFF#16, 4096)] ∧
    row.bits.toNat % secondaryModulus (opField row.bits) ∈ secondaryCodes (opField row.bits) := by
  decide

theorem legal_of_selects {row : OpcodeRow} (hrow : row ∈ opcodeMap) (h : row.selects w = true) : LegalWord w := by
  obtain ⟨hmask, hcode⟩ := opcodeMap_by_family row hrow
  obtain ⟨bits, mask⟩ := row
  suffices opField w = opField bits ∧
      w.toNat % secondaryModulus (opField bits) = bits.toNat % secondaryModulus (opField bits) by
    rwa [legalWord_iff, this.1, this.2]
  have hbits := opField_eq bits
  simp only [List.mem_cons, List.not_mem_nil, or_false, Prod.mk.injEq] at hmask
  obtain ⟨rfl, hm⟩ | ⟨rfl, hm⟩ | ⟨rfl, hm⟩ | ⟨rfl, hm⟩ := hmask
  · simp only [selects_F000, decide_eq_true_eq] at h
    rw [hm]; omega
  · simp only [selects_F00F, Bool.and_eq_true, decide_eq_true_eq, toNat_nField] at h
    rw [hm]; omega
  · simp only [selects_F0FF, Bool.and_eq_true, decide_eq_true_eq, toNat_kkField] at h
    rw [hm]; omega
  · simp only [selects_FFFF, Bool.and_eq_true, decide_eq_true_eq, toNat_nnnField] at h
    rw [hm]; omega

end

/-- Settles O4: a legal word is the encoding of an instruction, which selects one row, and a row that a word selects
makes it legal. -/
theorem decodeIsTotalStrictAndUnambiguous : Obligations.DecodeIsTotalStrictAndUnambiguous := by
  unfold Obligations.DecodeIsTotalStrictAndUnambiguous
  intro w
  refine ⟨exists_decodeWord_ok_iff, decodeWord_of_not_legal, fun h => ?_, fun h => ?_⟩
  · obtain ⟨i, hi⟩ := exists_decodeWord_ok_iff.mpr h
    rw [← encode_of_decodeWord_ok hi]
    exact encode_selects_one_row i
  · rw [List.length_eq_zero_iff, List.filter_eq_nil_iff]
    exact fun row hrow hsel => h (legal_of_selects hrow hsel)

/-! Counting by residues -/

theorem count_mul_of_periodic {p : Nat → Prop} [DecidablePred p] {m : Nat} (hp : Function.Periodic p m) (k : Nat) :
    Nat.count p (k * m) = k * Nat.count p m := by
  induction k with
  | zero => simp
  | succ k ih =>
    have hshift : (fun j => p (k * m + j)) = p := by
      funext j
      rw [Nat.add_comm]
      exact hp.nat_mul k j
    simp only [Nat.succ_mul, Nat.count_add, hshift, ih]

theorem count_notMem {m : Nat} {codes : List Nat} (hnd : codes.Nodup) (hlt : ∀ c ∈ codes, c < m) :
    Nat.count (· ∉ codes) m = m - codes.length := by
  have hsub : codes.toFinset ⊆ Finset.range m := fun c hc => Finset.mem_range.mpr (hlt c (List.mem_toFinset.mp hc))
  have hset : {c ∈ Finset.range m | c ∉ codes} = Finset.range m \ codes.toFinset := by
    ext c; simp
  rw [Nat.count_eq_card_filter_range, hset, Finset.card_sdiff_of_subset hsub, Finset.card_range,
    List.toFinset_card_of_nodup hnd]

/-- Each block of `m` numbers leaves each residue once. -/
theorem count_mod_notMem {m : Nat} {codes : List Nat} (hnd : codes.Nodup) (hlt : ∀ c ∈ codes, c < m) (k : Nat) :
    Nat.count (fun j => j % m ∉ codes) (k * m) = k * (m - codes.length) := by
  have hp : Function.Periodic (fun j => j % m ∉ codes) m := fun j => by simp
  have hsame : Nat.count (fun j => j % m ∉ codes) m = Nat.count (· ∉ codes) m :=
    List.countP_congr fun j hj => by simp [Nat.mod_eq_of_lt (List.mem_range.mp hj)]
  rw [count_mul_of_periodic hp, hsame, count_notMem hnd hlt]

end Sys2Proof

namespace Sys2Proof.Machine

/-- The illegal words of a family: those whose secondary field holds none of its codes. -/
theorem illegalCount_eq {op : Nat} (hop : op < 16) :
    illegalCount op = 4096 / secondaryModulus op * (secondaryModulus op - (secondaryCodes op).length) := by
  have hdvd : secondaryModulus op ∣ 4096 := by interval_cases op <;> decide
  have hnd : (secondaryCodes op).Nodup := by interval_cases op <;> decide
  have hlt : ∀ c ∈ secondaryCodes op, c < secondaryModulus op := by interval_cases op <;> decide
  rw [← count_mod_notMem hnd hlt, Nat.div_mul_cancel hdvd, Nat.count, illegalCount]
  refine List.countP_congr fun low hlow => ?_
  rw [List.mem_range] at hlow
  have hw : (BitVec.ofNat 16 (op * 4096 + low)).toNat = op * 4096 + low := by
    rw [BitVec.toNat_ofNat]; omega
  have hopw : opField (BitVec.ofNat 16 (op * 4096 + low)) = op := by
    rw [opField_eq, hw]; omega
  have hmod : (op * 4096 + low) % secondaryModulus op = low % secondaryModulus op := by
    rw [Nat.add_mod, Nat.mod_eq_zero_of_dvd (hdvd.mul_left op), Nat.zero_add, Nat.mod_mod]
  rw [Option.isNone_iff_eq_none, ← Option.not_isSome_iff_eq_none, isSome_selectInstr_iff, legalWord_iff, hopw, hw,
    hmod, decide_eq_true_eq]

/-- Settles O5: a family's count is its blocks of the secondary field times the codes missing from one block; and the
Step of a ready machine records the word that the decoder rejects. -/
theorem illegalWordsAreCountedAndHalt : Obligations.IllegalWordsAreCountedAndHalt := by
  unfold Obligations.IllegalWordsAreCountedAndHalt
  have hcounts : (List.range 16).map illegalCount =
      [4094, 0, 0, 0, 0, 3840, 0, 0, 1792, 3840, 0, 0, 0, 0, 4064, 3952] := by
    rw [List.map_congr_left fun op hop => illegalCount_eq (List.mem_range.mp hop)]
    decide
  refine ⟨hcounts, by rw [hcounts]; rfl, fun s ⟨hp, hh, hm⟩ hf hw => ?_⟩
  rw [step_of_nil hp, stepEvent_of_illegal hh hm hf (decodeWord_of_not_legal hw), raiseFatal_eq]
  rfl

end Sys2Proof.Machine

/-! SUPPORT. Flow control (spec/40_flow.md): the words of the jumps, calls and skips decode as their patterns say, what
each of them does to PC and the stack, and that a return undoes its call. -/

namespace Sys2Proof

/-- A word that spells an encoding decodes to its instruction. -/
theorem decodeWord_of_eq_encode {w : Word} {i : Instr} (h : w = encode i) : decodeWord w = .ok i :=
  h ▸ decodeWord_encode i

end Sys2Proof

namespace Sys2Proof.Machine

/-! The jumps (R131, R140) -/

theorem toNat_zextAddr (nnn : BitVec 12) : (zextAddr nnn).toNat = nnn.toNat :=
  BitVec.toNat_setWidth_of_le (by decide)

theorem toNat_zextByte (b : Byte) : (zextByte b).toNat = b.toNat := BitVec.toNat_setWidth_of_le (by decide)

/-- The 16-bit sum of a 12-bit address and a byte is exact (R140). -/
theorem toNat_zextAddr_add_zextByte (nnn : BitVec 12) (b : Byte) :
    (zextAddr nnn + zextByte b).toNat = nnn.toNat + b.toNat := by
  rw [BitVec.toNat_add, toNat_zextAddr, toNat_zextByte]; omega

theorem fetchable_eq_false_iff (pc : Word) :
    fetchable pc = false ↔ pc.toNat % 2 = 1 ∨ pc.toNat < 0x200 ∨ 0xFFE < pc.toNat := by
  rw [← Bool.not_eq_true, fetchable_iff]; omega

/-- Settles O23: the jump sets PC alone, to the zero-extended target, which the fetch check of the next Step reads. -/
theorem jumpSetsThePc : Obligations.JumpSetsThePc := by
  unfold Obligations.JumpSetsThePc
  intro nnn s
  have hpc := toNat_zextAddr nnn
  refine ⟨decodeWord_of_eq_encode (nibbleAddr_eq_formatA 0x1 nnn), s.setPc (zextAddr nnn), rfl, rfl, hpc, ?_, ?_,
    fun _ => rfl⟩
  · intro hself
    rw [BitVec.eq_of_toNat_eq (hpc.trans hself)]
    rfl
  · intro hr hbad
    have hf : fetchable (zextAddr nnn) = false := by rw [fetchable_eq_false_iff]; omega
    exact step_of_bad_pc (s := s.setPc (zextAddr nnn)) hr hf

/-- Settles O30: the jump sets PC alone, to the exact sum, which the fetch check of the next Step reads. -/
theorem jumpWithOffsetAddsV0 : Obligations.JumpWithOffsetAddsV0 := by
  unfold Obligations.JumpWithOffsetAddsV0
  intro nnn s
  exact ⟨decodeWord_of_eq_encode (nibbleAddr_eq_formatA 0xB nnn), s.setPc (zextAddr nnn + zextByte (s.reg 0)), rfl, rfl,
    toNat_zextAddr_add_zextByte nnn (s.reg 0),
    fun hr hbad => step_of_bad_pc (s := s.setPc _) hr ((fetchable_eq_false_iff _).mpr hbad), fun _ => rfl⟩

/-! Call and return (R132, R133) -/

theorem exec_call_of_lt (nnn : BitVec 12) {s : State} (h : s.sp.val < 16) :
    exec (.call nnn) s = .next { s with
      stack := s.stack.set s.sp.val (s.pc + 2), sp := ⟨s.sp.val + 1, by omega⟩, pc := zextAddr nnn } := by
  change execCall nnn s = _
  unfold execCall
  rw [s.push_of_lt _ h]
  rfl

theorem exec_call_of_full (nnn : BitVec 12) {s : State} (h : s.sp = 16) :
    exec (.call nnn) s = raiseFatal .stackOverflow (encode (.call nnn)) 0 s := by
  change execCall nnn s = _
  unfold execCall
  rw [s.push_of_full _ h]

theorem exec_ret_of_pos {s : State} (h : 0 < s.sp.val) :
    exec .ret s = .next { s with sp := ⟨s.sp.val - 1, by omega⟩, pc := s.stack[s.sp.val - 1] } := by
  change execRet s = _
  unfold execRet
  rw [s.pop_of_pos h]
  rfl

theorem exec_ret_of_empty {s : State} (h : s.sp = 0) :
    exec .ret s = raiseFatal .stackUnderflow (encode .ret) 0 s := by
  change execRet s = _
  unfold execRet
  rw [s.pop_of_empty h]

/-- Settles O26: the return finds SP one above its value at the call, and pops the entry that the call wrote there. -/
theorem returnUndoesCall : Obligations.ReturnUndoesCall := by
  unfold Obligations.ReturnUndoesCall
  intro nnn s t u a hsp hcall hret
  rw [exec_call_of_lt nnn hsp] at hcall
  cases hcall
  rw [exec_ret_of_pos (Nat.succ_pos s.sp.val)] at hret
  cases hret
  exact ⟨Vector.getElem_set_self hsp, rfl, rfl⟩

/-- Settles O24: with room the call writes the one entry at SP; at 16 entries it records the overflow. -/
theorem callPushesTheNextAddress : Obligations.CallPushesTheNextAddress := by
  unfold Obligations.CallPushesTheNextAddress
  intro nnn s
  have hword := nibbleAddr_eq_formatA 0x2 nnn
  refine ⟨decodeWord_of_eq_encode hword, fun hsp => ?_, fun hsp => ?_⟩
  · refine ⟨_, exec_call_of_lt nnn hsp, rfl, toNat_zextAddr nnn, rfl, ?_, fun j hj => ?_, fun hf => ?_, fun _ => rfl⟩
    · exact Vector.getElem?_set_self hsp
    · exact Vector.getElem?_set_ne hsp hj.symm
    · rw [fetchable_iff] at hf
      bv_omega
  · rw [exec_call_of_full nnn hsp, raiseFatal_eq]
    exact hword ▸ rfl

/-- Settles O25: with an entry the return takes the one below SP; with none it records the underflow. -/
theorem returnPopsIntoThePc : Obligations.ReturnPopsIntoThePc := by
  unfold Obligations.ReturnPopsIntoThePc
  refine ⟨decodeWord_encode .ret, fun s => ⟨fun hsp => ?_, fun hsp => ?_⟩⟩
  · exact ⟨_, exec_ret_of_pos hsp, rfl, rfl, Vector.getElem?_eq_getElem (by omega), fun _ => rfl⟩
  · rw [exec_ret_of_empty hsp, raiseFatal_eq]
    rfl

/-! The conditional skips (R134 to R139) -/

/-- Families 5 and 9 admit no low nibble but 0 (R105). -/
theorem decodeWord_nibbles_of_pos {op : BitVec 4} (hop : op = 0x5 ∨ op = 0x9) (x y : Reg) {n : Nat} (h0 : 0 < n)
    (hn : n < 16) : decodeWord (nibbles op.toNat x y n) = .error (.illegal (nibbles op.toNat x y n)) := by
  have hnib : (BitVec.ofNat 4 n).toNat = n := by rw [BitVec.toNat_ofNat]; omega
  have hnone : ∀ i, decodeZeroNibble (formatXYN op x y (BitVec.ofNat 4 n)) i = none := fun i => by
    unfold decodeZeroNibble
    rw [nField_formatXYN, hnib]
    split
    · omega
    · rfl
  rw [← hnib, nibbles_eq_formatXYN]
  apply decodeWord_of_none
  unfold selectInstr
  rw [opField_formatXYN]
  obtain rfl | rfl := hop <;> exact hnone _

/-- A skip sets PC alone: past the next instruction where its condition holds, to it otherwise (R36). -/
theorem skipIf_pc (s : State) {taken : Bool} {p q : Prop} (hp : p → taken = true) (hq : q → taken = false) :
    ∃ t, skipIf taken s = .next t ∧ t = { s with pc := t.pc } ∧
      (p → t.pc = s.pc + 4) ∧ (q → t.pc = s.pc + 2) ∧ ∀ a, t.readByte a = s.readByte a := by
  refine ⟨_, skipIf_eq taken s, rfl, fun h => ?_, fun h => ?_, fun _ => rfl⟩
  · rw [hp h]; rfl
  · rw [hq h]; rfl

/-- Settles O27: the two conditions are the equality of the two bytes and its negation. -/
theorem immediateSkipsCompare : Obligations.ImmediateSkipsCompare := by
  unfold Obligations.ImmediateSkipsCompare
  intro x kk s
  exact ⟨decodeWord_of_eq_encode (nibblesByte_eq_formatXK 0x3 x kk),
    decodeWord_of_eq_encode (nibblesByte_eq_formatXK 0x4 x kk),
    skipIf_pc s beq_iff_eq.mpr beq_eq_false_iff_ne.mpr, skipIf_pc s bne_iff_ne.mpr bne_eq_false_iff_eq.mpr⟩

/-- Settles O28: the two conditions are the equality of the two registers and its negation. -/
theorem registerSkipsCompare : Obligations.RegisterSkipsCompare := by
  unfold Obligations.RegisterSkipsCompare
  intro x y s
  refine ⟨decodeWord_of_eq_encode (nibbles_eq_formatXYN 0x5 x y 0x0),
    decodeWord_of_eq_encode (nibbles_eq_formatXYN 0x9 x y 0x0), fun n h0 hn => ?_,
    skipIf_pc s beq_iff_eq.mpr beq_eq_false_iff_ne.mpr, skipIf_pc s bne_iff_ne.mpr bne_eq_false_iff_eq.mpr⟩
  exact ⟨decodeWord_nibbles_of_pos (.inl rfl) x y h0 hn, decodeWord_nibbles_of_pos (.inr rfl) x y h0 hn⟩

/-- The pressed key is compared as a number, so a byte above 15 matches none (R138). -/
theorem State.keyPressed_iff (s : State) (b : Byte) :
    s.keyPressed b = true ↔ ∃ k, s.key = some k ∧ k.toNat = b.toNat := by
  unfold State.keyPressed
  cases s.key with
  | none => simp
  | some k =>
    have hk : (zextKey k).toNat = k.toNat := BitVec.toNat_setWidth_of_le (by decide)
    rw [beq_iff_eq, ← BitVec.toNat_inj, hk]
    exact ⟨fun h => ⟨k, rfl, h⟩, fun ⟨_, rfl, h⟩ => h⟩

/-- Settles O29: the condition of SKP is that the pressed key has the value of Vx, that of SKNP its negation. -/
theorem keySkipsReadTheLatch : Obligations.KeySkipsReadTheLatch := by
  unfold Obligations.KeySkipsReadTheLatch
  intro x s
  have hkey := s.keyPressed_iff (s.reg x)
  have hno : (¬ ∃ k, s.key = some k ∧ k.toNat = (s.reg x).toNat) → s.keyPressed (s.reg x) = false :=
    fun h => Bool.eq_false_iff.mpr (mt hkey.mp h)
  refine ⟨decodeWord_of_eq_encode (nibblesByte_eq_formatXK 0xE x 0x9E),
    decodeWord_of_eq_encode (nibblesByte_eq_formatXK 0xE x 0xA1), skipIf_pc s hkey.mpr hno, ?_⟩
  exact skipIf_pc s (fun h => by rw [hno h]; rfl) (fun h => by rw [hkey.mpr h]; rfl)

end Sys2Proof.Machine

/-! SUPPORT. Arithmetic and logic (spec/41_arith_logic.md): what the two shared forms of write leave behind, the
value of each flag as a number, and that result and flag together are the exact result. -/

namespace Sys2Proof.Machine

/-! The two shared forms (R161): a result alone, and a result followed by a flag. A postcondition of the new state is
derived from the value of the register it reads. -/

/-- An instruction with no flag side effect writes its result and moves on; nothing else changes. -/
theorem writeResult_next (x : Reg) {r : Byte} (s : State) {p : State → Prop} (hp : ∀ t : State, t.reg x = r → p t) :
    ∃ t, writeResult x r s = .next t ∧ t = { s with v := t.v, pc := s.pc + 2 } ∧ p t ∧
      (∀ z, z ≠ x → t.reg z = s.reg z) ∧ ∀ a, t.readByte a = s.readByte a :=
  ⟨(s.setReg x r).advance, rfl, rfl, hp _ (s.reg_setReg_self x r), fun z hz => s.reg_setReg_of_ne x z r hz,
    fun _ => rfl⟩

/-- An instruction with one leaves the flag in VF, and its result in a destination other than VF (R161). -/
theorem writeResultFlag_next (x : Reg) {r : Byte} {f : Bool} (s : State) {p q : State → Prop}
    (hp : ∀ t : State, t.reg 15 = flagByte f → p t) (hq : ∀ t : State, t.reg x = r → q t) :
    ∃ t, writeResultFlag x r f s = .next t ∧ t = { s with v := t.v, pc := s.pc + 2 } ∧ p t ∧ (x ≠ 15 → q t) ∧
      (∀ z, z ≠ x → z ≠ 15 → t.reg z = s.reg z) ∧ ∀ a, t.readByte a = s.readByte a := by
  have hflag : ∀ z, z ≠ 15 → ((s.setReg x r).setFlag f).reg z = (s.setReg x r).reg z :=
    fun _ => (s.setReg x r).reg_setFlag_of_ne f
  refine ⟨(s.setResultThenFlag x r f).advance, rfl, rfl, hp _ (State.reg_setFlag_vf _ f), fun hx => hq _ ?_,
    fun z hz hv => ?_, fun _ => rfl⟩
  · exact (hflag x hx).trans (s.reg_setReg_self x r)
  · exact (hflag z hv).trans (s.reg_setReg_of_ne x z r hz)

/-! The flags and the difference as numbers (R32, R157 to R160) -/

theorem flagByte_decide (p : Prop) [Decidable p] : flagByte (decide p) = if p then 1 else 0 := by
  by_cases hp : p <;> simp [flagByte, hp]

theorem toNat_byte_ite (p : Prop) [Decidable p] : BitVec.toNat (if p then 1 else 0 : Byte) = if p then 1 else 0 := by
  split <;> rfl

theorem toNat_flagByte (f : Bool) : (flagByte f).toNat = f.toNat := by
  cases f <;> rfl

theorem toNat_flagByte_shiftedOutRight (a : Byte) : (flagByte (shiftedOutRight a)).toNat = a.toNat % 2 := by
  rw [toNat_flagByte, shiftedOutRight, BitVec.getLsbD, Nat.toNat_testBit, pow_zero, Nat.div_one]

theorem toNat_flagByte_shiftedOutLeft (a : Byte) : (flagByte (shiftedOutLeft a)).toNat = a.toNat / 128 := by
  rw [toNat_flagByte, shiftedOutLeft, BitVec.getLsbD, Nat.toNat_testBit]
  omega

/-- The difference of two bytes is that of the integers modulo 256. -/
theorem toNat_byte_sub (a b : Byte) : ((a - b).toNat : Int) = (a.toNat - b.toNat : Int) % 256 := by
  rw [BitVec.toNat_sub]
  omega

/-! The instructions -/

/-- Settles O31: each is the shared write of its result, the immediate or the 8-bit sum. -/
theorem immediateLoadAndAdd : Obligations.ImmediateLoadAndAdd := by
  unfold Obligations.ImmediateLoadAndAdd
  intro x kk s
  refine ⟨decodeWord_of_eq_encode (nibblesByte_eq_formatXK 0x6 x kk),
    decodeWord_of_eq_encode (nibblesByte_eq_formatXK 0x7 x kk), ?_, ?_⟩
  · exact writeResult_next x s fun _ hr => hr
  · exact writeResult_next x s fun _ hr => hr ▸ BitVec.toNat_add (s.reg x) kk

/-- Settles O32: each is the shared write of its result, whose bits are those of the two old values combined. -/
theorem copyAndLogicAreBitwise : Obligations.CopyAndLogicAreBitwise := by
  unfold Obligations.CopyAndLogicAreBitwise
  intro x y s
  have hword : ∀ n : BitVec 4, nibbles 0x8 x y n.toNat = formatXYN 0x8 x y n := nibbles_eq_formatXYN 0x8 x y
  refine ⟨decodeWord_of_eq_encode (hword 0x0), decodeWord_of_eq_encode (hword 0x1), decodeWord_of_eq_encode (hword 0x2),
    decodeWord_of_eq_encode (hword 0x3), ?_, ?_, ?_, ?_⟩
  · exact writeResult_next x s fun _ hr => hr
  · exact writeResult_next x s fun _ hr b => hr ▸ BitVec.getLsbD_or
  · exact writeResult_next x s fun _ hr b => hr ▸ BitVec.getLsbD_and
  · exact writeResult_next x s fun _ hr b => hr ▸ BitVec.getLsbD_xor

/-- Settles O33: the shared write of the 8-bit sum and, after it, of the carry of the old values. -/
theorem addWritesSumThenCarry : Obligations.AddWritesSumThenCarry := by
  unfold Obligations.AddWritesSumThenCarry
  intro x y s
  exact ⟨decodeWord_of_eq_encode (nibbles_eq_formatXYN 0x8 x y 0x4),
    writeResultFlag_next x s (fun _ hf => hf.trans (flagByte_decide _))
      fun _ hr => hr ▸ BitVec.toNat_add (s.reg x) (s.reg y)⟩

/-- Settles O34: the shared write of the 8-bit difference and, after it, of the comparison of the old values; SUBN
exchanges the two. -/
theorem subtractWritesDifferenceThenNotBorrow : Obligations.SubtractWritesDifferenceThenNotBorrow := by
  unfold Obligations.SubtractWritesDifferenceThenNotBorrow
  intro x y s
  refine ⟨decodeWord_of_eq_encode (nibbles_eq_formatXYN 0x8 x y 0x5),
    decodeWord_of_eq_encode (nibbles_eq_formatXYN 0x8 x y 0x7), ?_, ?_⟩
  · exact writeResultFlag_next x s (fun _ hf => hf.trans (flagByte_decide _))
      fun _ hr => hr ▸ toNat_byte_sub (s.reg x) (s.reg y)
  · exact writeResultFlag_next x s (fun _ hf => hf.trans (flagByte_decide _))
      fun _ hr => hr ▸ toNat_byte_sub (s.reg y) (s.reg x)

/-- Settles O35: the shared write of the shifted byte and, after it, of the lowest or the highest old bit. -/
theorem shiftsWriteResultThenShiftedOutBit : Obligations.ShiftsWriteResultThenShiftedOutBit := by
  unfold Obligations.ShiftsWriteResultThenShiftedOutBit
  intro x y s
  refine ⟨decodeWord_of_eq_encode (nibbles_eq_formatXYN 0x8 x y 0x6),
    decodeWord_of_eq_encode (nibbles_eq_formatXYN 0x8 x y 0xE), ?_, ?_⟩
  · refine writeResultFlag_next x s (fun _ hf => hf ▸ toNat_flagByte_shiftedOutRight (s.reg x)) fun _ hr => ?_
    rw [hr, BitVec.toNat_ushiftRight, Nat.shiftRight_eq_div_pow, pow_one]
  · refine writeResultFlag_next x s (fun _ hf => hf ▸ toNat_flagByte_shiftedOutLeft (s.reg x)) fun _ hr => ?_
    rw [hr, BitVec.toNat_shiftLeft, Nat.shiftLeft_eq, pow_one]

/-- Settles O36: result and flag are those of O33 to O35, and the flag is the part of the exact result that the eight
bits of Vx leave out. -/
theorem resultAndFlagAreTheExactResult : Obligations.ResultAndFlagAreTheExactResult := by
  unfold Obligations.ResultAndFlagAreTheExactResult
  intro x y s t hx
  obtain ⟨-, a, hadd, -, hcarry, hsum, -⟩ := addWritesSumThenCarry x y s
  obtain ⟨-, -, ⟨b, hsub, -, hflag, hdiff, -⟩, c, hsubn, -, hflagn, hdiffn, -⟩ :=
    subtractWritesDifferenceThenNotBorrow x y s
  obtain ⟨-, -, ⟨d, hshr, -, hlow, hhalf, -⟩, e, hshl, -, hhigh, hdouble, -⟩ := shiftsWriteResultThenShiftedOutBit x y s
  refine ⟨fun h => ?_, fun h => ?_, fun h => ?_, fun h => ?_, fun h => ?_⟩
  · cases hadd.symm.trans h
    have := hsum hx
    rw [hcarry, toNat_byte_ite]
    split <;> omega
  · cases hsub.symm.trans h
    have := hdiff hx
    rw [hflag, toNat_byte_ite]
    split <;> omega
  · cases hsubn.symm.trans h
    have := hdiffn hx
    rw [hflagn, toNat_byte_ite]
    split <;> omega
  · cases hshr.symm.trans h
    have := hhalf hx
    omega
  · cases hshl.symm.trans h
    have := hdouble hx
    omega

end Sys2Proof.Machine

/-! SUPPORT. The index register (spec/42_index.md): the one shape of the three instructions that write I, and the value
that each of them writes, as a number. -/

namespace Sys2Proof.Machine

/-- An instruction that writes I writes nothing else and moves on. -/
theorem setI_next {a : Word} {n : Nat} (s : State) (ha : a.toNat = n) :
    ∃ t, (.next (s.setI a).advance : Result) = .next t ∧ t = { s with i := t.i, pc := s.pc + 2 } ∧
      t.i.toNat = n ∧ ∀ k, t.readByte k = s.readByte k :=
  ⟨(s.setI a).advance, rfl, rfl, ha, fun k => s.readByte_setI k a⟩

/-- The sum of I and a byte wraps at 16 bits, not at 12 (R171). -/
theorem toNat_add_zextByte (a : Word) (b : Byte) : (a + zextByte b).toNat = (a.toNat + b.toNat) % 65536 := by
  rw [BitVec.toNat_add, toNat_zextByte]

/-- Five times a byte is below 2 ^ 16, so the glyph address is the exact product, for a byte above 15 too (R172). -/
theorem toNat_glyphAddress (b : Byte) : (glyphAddress b).toNat = 5 * b.toNat := by
  rw [glyphAddress, Config.glyphBase, Config.glyphStride, BitVec.toNat_ofNat]
  omega

/-- Settles O37: each is the shared write of I, with the zero-extended address, the 16-bit sum or the glyph address. -/
theorem indexRegisterWrites : Obligations.IndexRegisterWrites := by
  unfold Obligations.IndexRegisterWrites
  intro nnn x s
  refine ⟨decodeWord_of_eq_encode (nibbleAddr_eq_formatA 0xA nnn),
    decodeWord_of_eq_encode (nibblesByte_eq_formatXK 0xF x 0x1E),
    decodeWord_of_eq_encode (nibblesByte_eq_formatXK 0xF x 0x29), ?_, ?_, ?_⟩
  · exact setI_next s (toNat_zextAddr nnn)
  · exact setI_next s (toNat_add_zextByte s.i (s.reg x))
  · exact setI_next s (toNat_glyphAddress (s.reg x))

end Sys2Proof.Machine

/-! SUPPORT. The random instruction (spec/43_random.md): the random byte of a Step comes from the schedule or from the
draw count, and every other instruction answers alike under every schedule. -/

namespace Sys2Proof.Machine

/-! Where the random byte comes from (R180) -/

theorem State.rndByte_of_step {s : State} {b : Byte} {es : List Event} (hp : s.pending = .step b :: es) :
    s.rndByte = b := by
  unfold State.rndByte
  rw [hp]

theorem State.rndByte_of_nil {s : State} (hp : s.pending = []) : s.rndByte = Config.rnd s.draws := by
  unfold State.rndByte
  rw [hp]

/-- A masked byte has no bit outside the mask. -/
theorem and_mask_and_not_mask (b kk : Byte) : b &&& kk &&& ~~~kk = 0 := by
  rw [BitVec.and_assoc, BitVec.and_not_self]
  exact BitVec.and_zero

/-! What no instruction but RND reads: the schedule -/

/-- The state with another schedule of host events. -/
def State.withPending (s : State) (es : List Event) : State := { s with pending := es }

/-- Only the last schedule put into an outcome remains. -/
theorem delivered_delivered (es fs : List Event) (r : Result) : delivered es (delivered fs r) = delivered es r := by
  cases r <;> rfl

section
variable (s : State) (es : List Event)

theorem State.push_withPending (a : Word) : (s.withPending es).push a = (s.push a).map (·.withPending es) := by
  unfold State.push State.withPending
  split <;> rfl

theorem State.pop_withPending : (s.withPending es).pop = s.pop.map fun q => (q.1, q.2.withPending es) := by
  unfold State.pop State.withPending
  split <;> rfl

theorem State.memRead_withPending (base n : Nat) : (s.withPending es).memRead base n = s.memRead base n := rfl

theorem State.writeBytes_withPending (a : Nat) (bytes : List Byte) :
    (s.withPending es).writeBytes a bytes = (s.writeBytes a bytes).withPending es := by
  have hm : ((s.withPending es).writeBytes a bytes).mem = (s.writeBytes a bytes).mem :=
    State.writeBytes_mem_congr a bytes rfl
  rw [State.writeBytes_frame, State.writeBytes_frame s, hm]
  rfl

theorem State.memWrite_withPending (base : Nat) (bytes : List Byte) :
    (s.withPending es).memWrite base bytes = (s.memWrite base bytes).map (·.withPending es) := by
  unfold State.memWrite
  rw [State.writeBytes_withPending]
  split <;> rfl

theorem execCall_withPending (nnn : BitVec 12) :
    execCall nnn (s.withPending es) = delivered es (execCall nnn s) := by
  unfold execCall
  rw [State.push_withPending, show (s.withPending es).npc = s.npc from rfl]
  cases s.push s.npc <;> rfl

theorem execRet_withPending : execRet (s.withPending es) = delivered es (execRet s) := by
  unfold execRet
  rw [State.pop_withPending]
  cases s.pop <;> rfl

theorem execDrw_withPending (x y : Reg) (n : BitVec 4) :
    execDrw x y n (s.withPending es) = delivered es (execDrw x y n s) := by
  unfold execDrw
  rw [State.memRead_withPending, show (s.withPending es).i = s.i from rfl]
  cases s.memRead s.i.toNat n.toNat <;> rfl

theorem execLdVxMem_withPending (x : Reg) : execLdVxMem x (s.withPending es) = delivered es (execLdVxMem x s) := by
  unfold execLdVxMem
  rw [State.memRead_withPending, show (s.withPending es).i = s.i from rfl]
  cases s.memRead s.i.toNat (x.val + 1) <;> rfl

theorem storeAtI_withPending (w : Word) (bytes : List Byte) :
    storeAtI w bytes (s.withPending es) = delivered es (storeAtI w bytes s) := by
  unfold storeAtI
  rw [State.memWrite_withPending, show (s.withPending es).i = s.i from rfl]
  cases s.memWrite s.i.toNat bytes <;> rfl

/-- Every instruction but RND carries the schedule along unread: exchanging it before or after comes to the same. -/
theorem exec_withPending {i : Instr} (hi : ∀ x kk, i ≠ .rnd x kk) :
    exec i (s.withPending es) = delivered es (exec i s) := by
  cases i with
  | rnd x kk => exact (hi x kk rfl).elim
  | call => exact execCall_withPending ..
  | ret => exact execRet_withPending ..
  | drw => exact execDrw_withPending ..
  | ldVxMem => exact execLdVxMem_withPending ..
  | ldBVx | ldMemVx => exact storeAtI_withPending ..
  | _ => rfl

end

/-- Settles O38: RND writes the masked random byte, whose two sources are the schedule's Step and the draw count; the
outcome of any other instruction does not depend on the schedule, where the byte stands. -/
theorem randomIsAMaskedFreeByte : Obligations.RandomIsAMaskedFreeByte := by
  unfold Obligations.RandomIsAMaskedFreeByte
  refine ⟨fun x kk s => ?_, fun i s b c es hi => ?_⟩
  · have hx : ((s.setReg x (s.rndByte &&& kk)).drawn.advance).reg x = s.rndByte &&& kk := s.reg_setReg_self x _
    refine ⟨decodeWord_of_eq_encode (nibblesByte_eq_formatXK 0xC x kk), _, rfl, rfl, fun b es hp => ?_, fun hp => ?_, ?_,
      fun z hz => s.reg_setReg_of_ne x z _ hz, fun _ => rfl⟩
    · rw [hx, State.rndByte_of_step hp]
    · rw [hx, State.rndByte_of_nil hp]
    · rw [hx, and_mask_and_not_mask]
  · have hany : ∀ fs, delivered es (exec i (s.withPending fs)) = delivered es (exec i s) := fun fs => by
      rw [exec_withPending s fs hi, delivered_delivered]
    exact (hany (.step b :: es)).trans (hany (.step c :: es)).symm

end Sys2Proof.Machine

/-! SUPPORT. Clear and sprite draw (spec/44_display.md): a draw inverts a set of pixels, put together from those of the
single bits; what the draw statements say follows from that set being the lit pixels of the sprite. -/

namespace Sys2Proof.Machine

/-! Clear and DRW as instructions (R185, R186) -/

/-- Settles O39: CLS writes the cleared display and moves on. -/
theorem clearTurnsEveryPixelOff : Obligations.ClearTurnsEveryPixelOff := by
  unfold Obligations.ClearTurnsEveryPixelOff
  exact ⟨decodeWord_of_eq_encode rfl,
    fun s => ⟨(s.setFb clearFrame).advance, rfl, rfl, pixel_clearFrame, fun a => s.readByte_setFb a clearFrame⟩⟩

section
variable (x y : Reg) {n : BitVec 4} {s : State}

/-- DRW where the whole sprite can be read draws it, leaves the collision in VF and moves on. -/
theorem execDrw_of_readsInRange (h : ReadsInRange s.i.toNat n.toNat) :
    let d := draw (s.reg x).toNat (s.reg y).toNat ((span s.i.toNat n.toNat).map s.readByte) s.fb
    execDrw x y n s = .next ((s.setFb d.frame).setFlag d.collision).advance := by
  simp only [execDrw, s.memRead_ok _ _ h]

/-- DRW where it cannot only records the fault, at the first address above memory. -/
theorem execDrw_of_not_readsInRange (h : ¬ ReadsInRange s.i.toNat n.toNat) :
    execDrw x y n s =
      raiseFatal .outOfRangeAccess (encode (.drw x y n)) (firstBadRead s.i.toNat) s := by
  simp only [execDrw, s.memRead_error _ _ h, raiseOutOfRange]

end

/-- Settles O40: the sprite is the run of bytes from I where that can be read; VF is the one register written. -/
theorem drawReadsTheSpriteAndSetsCollision : Obligations.DrawReadsTheSpriteAndSetsCollision := by
  unfold Obligations.DrawReadsTheSpriteAndSetsCollision
  intro x y n s
  have hword : nibbles 0xD x y n.toNat = encode (.drw x y n) := nibbles_eq_formatXYN 0xD x y n
  refine ⟨decodeWord_of_eq_encode hword, fun hin => ?_, fun hpos hout => ?_⟩
  · have hr : ReadsInRange s.i.toNat n.toNat := by
      obtain rfl | hle := hin
      · exact .inl rfl
      · unfold ReadsInRange; omega
    exact ⟨_, (span s.i.toNat n.toNat).map s.readByte, execDrw_of_readsInRange x y hr, rfl, by simp [span],
      getElem_span_map s _ _, rfl, State.reg_setFlag_vf _ _,
      fun _ hz => State.reg_setFlag_of_ne _ _ hz, fun _ => rfl⟩
  · have hr : ¬ ReadsInRange s.i.toNat n.toNat := by unfold ReadsInRange; omega
    rw [hword]
    exact execDrw_of_not_readsInRange x y hr

/-! Inverting a set of pixels -/

/-- The drawing `e` is the drawing `d` with the pixels of the set `lit` inverted, each of them once, and a collision
more where one of them was on (R187). -/
structure Inverts (lit : Fin 32 → Fin 64 → Prop) (d e : Drawing) : Prop where
  pixel_lit : ∀ r c, lit r c → pixel e.frame r c = !pixel d.frame r c
  pixel_unlit : ∀ r c, ¬ lit r c → pixel e.frame r c = pixel d.frame r c
  collision_iff : e.collision = true ↔ d.collision = true ∨ ∃ r c, lit r c ∧ pixel d.frame r c = true

/-- Changing nothing inverts no pixel. -/
theorem Inverts.none {lit : Fin 32 → Fin 64 → Prop} (h : ∀ r c, ¬ lit r c) (d : Drawing) : Inverts lit d d where
  pixel_lit r c hl := (h r c hl).elim
  pixel_unlit _ _ _ := rfl
  collision_iff := (or_iff_left fun ⟨r, c, hl, _⟩ => h r c hl).symm

/-- Two sets inverted one after the other are their union inverted, where no pixel is in both. -/
theorem Inverts.union {litD litE lit : Fin 32 → Fin 64 → Prop} {d e g : Drawing} (hd : Inverts litD d e)
    (he : Inverts litE e g) (hlit : ∀ r c, lit r c ↔ litD r c ∨ litE r c)
    (hdisj : ∀ r c, litD r c → ¬ litE r c) : Inverts lit d g where
  pixel_lit r c hl := by
    obtain hD | hE := (hlit r c).mp hl
    · rw [he.pixel_unlit r c (hdisj r c hD), hd.pixel_lit r c hD]
    · rw [he.pixel_lit r c hE, hd.pixel_unlit r c (hdisj r c · hE)]
  pixel_unlit r c hl := by
    obtain ⟨hD, hE⟩ := not_or.mp (mt (hlit r c).mpr hl)
    rw [he.pixel_unlit r c hE, hd.pixel_unlit r c hD]
  collision_iff := by
    have hkept : ∀ r c, litE r c ∧ pixel e.frame r c = true ↔ litE r c ∧ pixel d.frame r c = true := fun r c =>
      and_congr_right fun hE => by rw [hd.pixel_unlit r c (hdisj r c · hE)]
    simp only [he.collision_iff, hd.collision_iff, hkept, hlit, or_and_right, exists_or, or_assoc]

/-- A sprite bit inverts its pixel where it is set, and no pixel where it is clear. -/
theorem drawBit_inverts (bit : Bool) (r : Fin 32) (c : Fin 64) (d : Drawing) :
    Inverts (fun r' c' => r' = r ∧ c' = c ∧ bit = true) d (drawBit bit r c d) where
  pixel_lit := by
    rintro _ _ ⟨rfl, rfl, rfl⟩
    simp [pixel_drawBit]
  pixel_unlit r' c' hl := by
    cases bit with
    | false => rfl
    | true =>
      have hne : ¬ (r' = r ∧ c' = c) := fun ⟨hr, hc⟩ => hl ⟨hr, hc, rfl⟩
      rw [pixel_drawBit, decide_eq_false hne, Bool.and_false, Bool.xor_false]
  collision_iff := by simp [collision_drawBit]

/-! The bits of a byte and the bytes of a sprite -/

/-- One of the first `k` bits of a sprite byte drawn on row `r` is set at a pixel (R187). -/
def BitsLit (x0 k : Nat) (byte : Byte) (r r' : Fin 32) (c : Fin 64) : Prop :=
  r' = r ∧ ∃ b < k, (x0 + b) % 64 = c.val ∧ byte.getLsbD (7 - b) = true

/-- The first `k` bits of a byte, up to the width of the display, land on `k` different columns and so invert one pixel
for each that is set. -/
theorem foldl_drawBit_inverts (x0 : Nat) (byte : Byte) (r : Fin 32) (d : Drawing) {k : Nat} (hk : k ≤ 64) :
    Inverts (BitsLit x0 k byte r) d
      ((List.range k).foldl (fun d b => drawBit (byte.getLsbD (7 - b)) r (Fin.ofNat 64 (x0 + b)) d) d) := by
  induction k with
  | zero => exact .none (fun _ _ ⟨_, _, hb, _⟩ => Nat.not_lt_zero _ hb) d
  | succ k ih =>
    rw [List.range_succ, List.foldl_append]
    refine (ih (by omega)).union (drawBit_inverts _ r _ _) (fun r' c => ?_) ?_
    · have hcol : c = Fin.ofNat 64 (x0 + k) ↔ (x0 + k) % 64 = c.val := Fin.ext_iff.trans eq_comm
      simp only [BitsLit, Nat.exists_lt_succ_right, and_or_left, hcol]
    · rintro r' c ⟨-, b, hb, hc, -⟩ ⟨-, rfl, -⟩
      have : (x0 + b) % 64 = (x0 + k) % 64 := hc
      omega

/-- A sprite byte inverts the pixel of each of its eight bits that is set. -/
theorem drawByte_inverts (x0 : Nat) (byte : Byte) (r : Fin 32) (d : Drawing) :
    Inverts (BitsLit x0 8 byte r) d (drawByte x0 byte r d) :=
  foldl_drawBit_inverts x0 byte r d (by decide)

/-- A pixel is lit by the first byte of a sprite, or by the rest of the sprite one row further down. -/
theorem spriteLit_cons (x0 y : Nat) (byte : Byte) (bytes : List Byte) (r : Fin 32) (c : Fin 64) :
    SpriteLit x0 y (byte :: bytes) r c ↔
      BitsLit x0 8 byte (Fin.ofNat 32 y) r c ∨ SpriteLit x0 (y + 1) bytes r c := by
  constructor
  · rintro ⟨_ | j, b, _, hj, hb, hr, hc, hbit⟩
    · cases hj
      exact .inl ⟨Fin.ext hr.symm, b, hb, hc, hbit⟩
    · exact .inr ⟨j, b, _, hj, hb, by omega, hc, hbit⟩
  · rintro (⟨rfl, b, hb, hc, hbit⟩ | ⟨j, b, _, hj, hb, hr, hc, hbit⟩)
    · exact ⟨0, b, byte, rfl, hb, rfl, hc, hbit⟩
    · exact ⟨j + 1, b, _, hj, hb, by omega, hc, hbit⟩

/-- A sprite no longer than the display is high lands on different rows, and so inverts each pixel that it lights. -/
theorem drawRows_inverts (x0 y : Nat) (sprite : List Byte) (d : Drawing) (hl : sprite.length ≤ 32) :
    Inverts (SpriteLit x0 y sprite) d (drawRows x0 y sprite d) := by
  induction sprite generalizing y d with
  | nil => exact .none (fun _ _ ⟨_, _, _, hj, _⟩ => by cases hj) d
  | cons byte bytes ih =>
    rw [List.length_cons] at hl
    refine (drawByte_inverts x0 byte _ d).union (ih (y + 1) _ (by omega))
      (spriteLit_cons x0 y byte bytes) ?_
    rintro _ c ⟨rfl, -⟩ ⟨j, b, _, hj, hb, hr, -⟩
    have hlt := (List.getElem?_eq_some_iff.mp hj).1
    have : (y + 1 + j) % 32 = y % 32 := hr
    omega

/-- A draw starts without a collision. -/
theorem draw_inverts (x0 y0 : Nat) (sprite : List Byte) (f : Frame) (hl : sprite.length ≤ 15) :
    Inverts (SpriteLit x0 y0 sprite) ⟨f, false⟩ (draw x0 y0 sprite f) :=
  drawRows_inverts x0 y0 sprite _ (by omega)

/-- Settles O41: the draw inverts the lit pixels of the sprite. -/
theorem drawInvertsExactlyTheLitPixels : Obligations.DrawInvertsExactlyTheLitPixels := by
  unfold Obligations.DrawInvertsExactlyTheLitPixels
  intro x0 y0 sprite f hl
  obtain ⟨hlit, hunlit, hcollision⟩ := draw_inverts x0 y0 sprite f hl
  exact ⟨hlit, hunlit, hcollision.trans (or_iff_right Bool.false_ne_true)⟩

/-! Drawing twice (R188 (c), (d)) -/

/-- Two displays with the same pixels are the same. -/
theorem frame_ext {f g : Frame} (h : ∀ r c, pixel f r c = pixel g r c) : f = g :=
  Vector.ext fun r hr => BitVec.eq_of_getMsbD_eq fun c hc => h ⟨r, hr⟩ ⟨c, hc⟩

/-- A sprite has a set bit exactly when it lights a pixel. -/
theorem exists_spriteLit_iff (x0 y0 : Nat) (sprite : List Byte) :
    (∃ r c, SpriteLit x0 y0 sprite r c) ↔ ∃ byte ∈ sprite, byte ≠ 0 := by
  constructor
  · rintro ⟨r, c, j, b, byte, hj, hb, -, -, hbit⟩
    refine ⟨byte, List.mem_of_getElem? hj, ?_⟩
    rintro rfl
    simp at hbit
  · rintro ⟨byte, hmem, hne⟩
    obtain ⟨j, hj⟩ := List.getElem?_of_mem hmem
    obtain ⟨b, hb, hbit⟩ : ∃ b < 8, byte.getMsbD b = true := by
      by_contra hoff
      exact hne (BitVec.eq_of_getMsbD_eq fun b hb => by
        simpa using fun hbit => hoff ⟨b, hb, hbit⟩)
    rw [BitVec.getMsbD_eq_getLsbD, decide_eq_true hb, Bool.true_and] at hbit
    exact ⟨Fin.ofNat 32 (y0 + j), Fin.ofNat 64 (x0 + b), j, b, byte, hj, hb, rfl, rfl, hbit⟩

/-- Settles O42: a pixel is inverted by both draws or by neither, and before the second draw a lit pixel is on exactly
where it was off before the first. -/
theorem drawingTwiceRestoresTheDisplay : Obligations.DrawingTwiceRestoresTheDisplay := by
  unfold Obligations.DrawingTwiceRestoresTheDisplay
  intro x0 y0 sprite f hl
  obtain ⟨hlit, hunlit, hcollision⟩ := drawInvertsExactlyTheLitPixels x0 y0 sprite f hl
  obtain ⟨hlit', hunlit', hcollision'⟩ := drawInvertsExactlyTheLitPixels x0 y0 sprite (draw x0 y0 sprite f).frame hl
  have hsecond : (draw x0 y0 sprite (draw x0 y0 sprite f).frame).collision = true ↔
      ∃ r c, SpriteLit x0 y0 sprite r c ∧ pixel f r c = false :=
    hcollision'.trans (exists₂_congr fun r c => and_congr_right fun h => by rw [hlit r c h, Bool.not_eq_true'])
  refine ⟨frame_ext fun r c => ?_, hsecond, fun hclear => ⟨?_, ?_⟩, fun hzero => ?_⟩
  · by_cases h : SpriteLit x0 y0 sprite r c
    · rw [hlit' r c h, hlit r c h, Bool.not_not]
    · rw [hunlit' r c h, hunlit r c h]
  · rw [Bool.eq_false_iff, ne_eq, hcollision]
    rintro ⟨r, c, -, hon⟩
    exact Bool.false_ne_true ((hclear r c).symm.trans hon)
  · simp only [hsecond, hclear, and_true, exists_spriteLit_iff]
  · have hnone : ∀ r c, ¬ SpriteLit x0 y0 sprite r c := fun r c h => by
      obtain ⟨byte, hmem, hne⟩ := (exists_spriteLit_iff x0 y0 sprite).mp ⟨r, c, h⟩
      exact hne (hzero byte hmem)
    have hframe : (draw x0 y0 sprite f).frame = f := frame_ext fun r c => hunlit r c (hnone r c)
    have hoff : (draw x0 y0 sprite f).collision = false :=
      Bool.eq_false_iff.mpr fun h => (hcollision.mp h).elim fun r ⟨c, h, _⟩ => hnone r c h
    exact congrArg₂ Drawing.mk hframe hoff

/-! Origins (R188 (e)) -/

/-- The columns of a byte depend on its origin modulo the width of the display only. -/
theorem drawByte_origin (x0 p : Nat) (byte : Byte) : drawByte (x0 + 64 * p) byte = drawByte x0 byte := by
  have hcol : ∀ b, Fin.ofNat 64 (x0 + 64 * p + b) = Fin.ofNat 64 (x0 + b) := fun b =>
    Fin.ext (show (x0 + 64 * p + b) % 64 = (x0 + b) % 64 by omega)
  funext r d
  simp only [drawByte, hcol]

/-- Settles O43, by induction on the sprite: each byte has the same row and the same columns from either origin. -/
theorem drawOriginsWrap : Obligations.DrawOriginsWrap := by
  unfold Obligations.DrawOriginsWrap
  intro x0 y0 p q sprite f
  have hrows : ∀ y d, drawRows (x0 + 64 * p) (y + 32 * q) sprite d = drawRows x0 y sprite d := by
    induction sprite with
    | nil => exact fun _ _ => rfl
    | cons byte bytes ih =>
      intro y d
      have hrow : Fin.ofNat 32 (y + 32 * q) = Fin.ofNat 32 y := Fin.ext (Nat.add_mul_mod_self_left y 32 q)
      rw [drawRows, drawRows, drawByte_origin, hrow, Nat.add_right_comm, ih]
  exact hrows y0 ⟨f, false⟩

end Sys2Proof.Machine

/-! SUPPORT. Timers, BCD and block transfers (spec/45_timer_bcd_block.md): what a store from I on writes and keeps, what
a bulk load reads and keeps, the one fault of each; a bulk load undoes a bulk store. -/

namespace Sys2Proof.Machine

/-! Timer transfers (R195 to R197) -/

/-- Settles O44: the first is the shared write of DT to a register; the others write one timer and move on. -/
theorem timerTransfersCopyOneByte : Obligations.TimerTransfersCopyOneByte := by
  unfold Obligations.TimerTransfersCopyOneByte
  intro x s
  refine ⟨decodeWord_of_eq_encode (nibblesByte_eq_formatXK 0xF x 0x07),
    decodeWord_of_eq_encode (nibblesByte_eq_formatXK 0xF x 0x15),
    decodeWord_of_eq_encode (nibblesByte_eq_formatXK 0xF x 0x18), ?_, ?_, ?_⟩
  · exact writeResult_next x s fun _ hr => hr
  · exact ⟨(s.setDt (s.reg x)).advance, rfl, rfl, fun a => s.readByte_setDt a (s.reg x)⟩
  · exact ⟨(s.setSt (s.reg x)).advance, rfl, rfl, bne_iff_ne, fun a => s.readByte_setSt a (s.reg x)⟩

/-! Stores from I on (R80, R198, R199) -/

section
variable (w : Word) {bytes : List Byte} {n : Nat} {s : State}

/-- A block of writes keeps every byte outside the block. -/
theorem State.readByte_writeBytes_outside {a k : Nat} (hk : k < a ∨ a + bytes.length ≤ k) :
    (s.writeBytes a bytes).readByte k = s.readByte k := by
  by_contra hne
  obtain ⟨hlo, hhi⟩ := State.mem_block_of_readByte_writeBytes_ne hne
  omega

/-- A store of `n + 1` bytes from I to a writable I + n leaves them there; no other byte changes, and of the rest only
PC. -/
theorem storeAtI_next (hl : bytes.length = n + 1) (hlo : 0x50 ≤ s.i.toNat) (hhi : s.i.toNat + n ≤ 0xFFF) :
    ∃ t, storeAtI w bytes s = .next t ∧ t = { s with mem := t.mem, pc := s.pc + 2 } ∧
      (∀ (j : Nat) (b : Byte), bytes[j]? = some b → t.readByte (s.i.toNat + j) = b) ∧
      ∀ a, a < s.i.toNat ∨ s.i.toNat + n < a → t.readByte a = s.readByte a := by
  refine ⟨_, storeAtI_ok w bytes s ⟨hlo, by omega⟩, ?_, fun j b hj => State.readByte_writeBytes_of_getElem? hj,
    fun a ha => State.readByte_writeBytes_outside (by omega)⟩
  rw [State.writeBytes_frame]
  rfl

/-- A store of `n + 1` bytes that meets an unwritable address only records the fault, at the first such address. -/
theorem storeAtI_outOfRange (hl : bytes.length = n + 1) (h : s.i.toNat < 0x50 ∨ 0xFFF < s.i.toNat + n) :
    storeAtI w bytes s = .next { s with
      halt := some ⟨.outOfRangeAccess, w, s.pc,
        BitVec.ofNat 17 (if s.i.toNat < 0x50 then s.i.toNat else max s.i.toNat 0x1000)⟩ } := by
  have hr : ¬ WritesInRange s.i.toNat bytes.length := by unfold WritesInRange; omega
  exact storeAtI_error w bytes s (List.ne_nil_of_length_eq_add_one hl) hr

end

/-- Settles O45: a store of three bytes, each the byte of a number below 256. -/
theorem bcdStoresThreeDigits : Obligations.BcdStoresThreeDigits := by
  unfold Obligations.BcdStoresThreeDigits
  intro x s
  have hword : nibblesByte 0xF x 0x33 = encode (.ldBVx x) := nibblesByte_eq_formatXK 0xF x 0x33
  refine ⟨decodeWord_of_eq_encode hword, fun hlo hhi => ?_, fun hout => ?_⟩
  · obtain ⟨t, hexec, ht, hread, hkeep⟩ :=
      storeAtI_next (encode (.ldBVx x)) (bytes := bcdDigits (s.reg x)) (n := 2) rfl hlo hhi
    have hdigit {j d : Nat} (hj : (bcdDigits (s.reg x))[j]? = some (BitVec.ofNat 8 d)) (hd : d < 256) :
        (t.readByte (s.i.toNat + j)).toNat = d := (congrArg _ (hread j _ hj)).trans (Nat.mod_eq_of_lt hd)
    exact ⟨t, hexec, ht, hdigit (j := 0) rfl (by omega), hdigit (j := 1) rfl (by omega), hdigit (j := 2) rfl (by omega),
      hkeep⟩
  · rw [hword]
    exact storeAtI_outOfRange (encode (.ldBVx x)) (n := 2) rfl hout

/-- Settles O46: a store of the `x + 1` bytes V0 to Vx. -/
theorem bulkStoreWritesV0ThroughVx : Obligations.BulkStoreWritesV0ThroughVx := by
  unfold Obligations.BulkStoreWritesV0ThroughVx
  intro x s
  have hword : nibblesByte 0xF x 0x55 = encode (.ldMemVx x) := nibblesByte_eq_formatXK 0xF x 0x55
  have hl := s.length_regsThrough x
  refine ⟨decodeWord_of_eq_encode hword, fun hlo hhi => ?_, fun hout => ?_⟩
  · obtain ⟨t, hexec, ht, hread, hkeep⟩ := storeAtI_next (encode (.ldMemVx x)) hl hlo hhi
    exact ⟨t, hexec, ht, fun z hz => hread z.val _ (s.getElem_regsThrough x z hz), hkeep⟩
  · rw [hword]
    exact storeAtI_outOfRange (encode (.ldMemVx x)) hl hout

/-! The bulk load (R200) -/

section
variable (x : Reg) {s : State}

/-- LD Vx, [I] where the whole block can be read writes its bytes to the registers from V0 on. -/
theorem execLdVxMem_of_readsInRange (h : ReadsInRange s.i.toNat (x.val + 1)) :
    execLdVxMem x s = .next (s.setRegs ((span s.i.toNat (x.val + 1)).map s.readByte)).advance := by
  simp only [execLdVxMem, s.memRead_ok _ _ h]

/-- LD Vx, [I] where it cannot only records the fault, at the first address above memory. -/
theorem execLdVxMem_of_not_readsInRange (h : ¬ ReadsInRange s.i.toNat (x.val + 1)) :
    execLdVxMem x s = raiseFatal .outOfRangeAccess (encode (.ldVxMem x)) (firstBadRead s.i.toNat) s := by
  simp only [execLdVxMem, s.memRead_error _ _ h, raiseOutOfRange]

end

/-- A run of `n` bytes written to the registers from V0 on reaches those below `n`, and no other. -/
theorem State.reg_setRegs_span (s : State) (base n : Nat) (z : Reg) :
    (s.setRegs ((span base n).map s.readByte)).reg z =
      if z.val < n then s.readByte (base + z.val) else s.reg z := by
  rw [State.reg_setRegs]
  split
  next hz => rw [getElem_span_map s base n z.val hz, Option.getD_some]
  next hz => rw [List.getElem?_eq_none (by simpa [span] using hz), Option.getD_none]

/-- Settles O47: the load is in range exactly when its last address is, and register `z` gets byte `z` of the block. -/
theorem bulkLoadReadsV0ThroughVx : Obligations.BulkLoadReadsV0ThroughVx := by
  unfold Obligations.BulkLoadReadsV0ThroughVx
  intro x s
  have hword : nibblesByte 0xF x 0x65 = encode (.ldVxMem x) := nibblesByte_eq_formatXK 0xF x 0x65
  refine ⟨decodeWord_of_eq_encode hword, fun hin => ?_, fun hout => ?_⟩
  · have hr : ReadsInRange s.i.toNat (x.val + 1) := .inr (by omega)
    have hreg := s.reg_setRegs_span s.i.toNat (x.val + 1)
    exact ⟨_, execLdVxMem_of_readsInRange x hr, rfl, fun z hz => (hreg z).trans (if_pos (Nat.lt_succ_of_le hz)),
      fun z hz => (hreg z).trans (if_neg (Nat.not_lt_of_le hz)), fun _ => rfl⟩
  · have hr : ¬ ReadsInRange s.i.toNat (x.val + 1) := by unfold ReadsInRange; omega
    rw [hword]
    exact execLdVxMem_of_not_readsInRange x hr

/-- Settles O48: the store leaves V0 to Vx at I to I + x and keeps I, so the load reads those bytes. -/
theorem bulkStoreThenLoadRecoversTheRegisters : Obligations.BulkStoreThenLoadRecoversTheRegisters := by
  unfold Obligations.BulkStoreThenLoadRecoversTheRegisters
  intro x s t u v hlo hhi hstore hload
  obtain ⟨ht, hwritten⟩ := exec_ldMemVx_of_inRange ⟨hlo, by omega⟩ hstore
  have hi : t.i = s.i := by rw [ht]
  obtain ⟨-, hin, -⟩ := bulkLoadReadsV0ThroughVx x { t with v := v }
  obtain ⟨u', hu', -, hread, habove, -⟩ := hin (hi ▸ hhi)
  cases hu'.symm.trans hload
  refine ⟨fun z hz => ?_, habove⟩
  calc u.reg z = t.readByte (t.i.toNat + z.val) := hread z hz
    _ = t.readByte (s.i.toNat + z.val) := by rw [hi]
    _ = s.reg z := hwritten z hz

end Sys2Proof.Machine

/-! SUPPORT. Key-wait (spec/46_keywait.md): what the instruction leaves behind, and what a Step and a Tick do to the
machine that it blocked. -/

namespace Sys2Proof.Machine

/-- Settles O49: `await` writes MODE and KREG alone. -/
theorem keyWaitBlocksAtItsOwnAddress : Obligations.KeyWaitBlocksAtItsOwnAddress := by
  unfold Obligations.KeyWaitBlocksAtItsOwnAddress
  intro x s
  exact ⟨decodeWord_of_eq_encode (nibblesByte_eq_formatXK 0xF x 0x0A), s.await x, rfl, rfl,
    fun a => s.readByte_await a x⟩

/-- A Step that the host scheduled leaves the schedule; a halted or blocked machine ignores it otherwise. -/
theorem step_scheduledStep_of_idle {s : State} {rnd : Byte} {es : List Event} (hp : s.pending = .step rnd :: es)
    (h : s.halt ≠ none ∨ s.mode = .blockedOnKey) : step s = .next { s with pending := es } :=
  calc step s = delivered es (stepEvent s) := step_of_cons hp
    _ = delivered es (.next s) := by rw [stepEvent_of_idle h]

/-- A timer counted down loses one, floored at 0 (R239). -/
theorem toNat_countDown (b : Byte) : (countDown b).toNat = b.toNat - 1 := by
  unfold countDown
  split
  next h => rw [h]; rfl
  next h => bv_omega

/-- One step that delivers a Tick: both timers are counted down, whatever the machine is doing. -/
theorem step_tick {s : State} {es : List Event} (hp : s.pending = .tick :: es) :
    step s = .next { s with dt := countDown s.dt, st := countDown s.st, boot := .booted, pending := es } :=
  step_of_cons hp

/-- Settles O13: a blocked machine ignores a Step, and a Tick does not look at MODE. -/
theorem blockedMachineOnlyWaits : Obligations.BlockedMachineOnlyWaits := by
  unfold Obligations.BlockedMachineOnlyWaits
  intro s hm
  refine ⟨fun hp => ?_, fun rnd es hp => step_scheduledStep_of_idle hp (.inr hm), fun es hp => ?_⟩
  · rw [step_of_nil hp, stepEvent_of_idle (.inr hm)]
  · exact ⟨_, step_tick hp, rfl, toNat_countDown s.dt, toNat_countDown s.st⟩

end Sys2Proof.Machine

/-! SUPPORT. The sequencer and the fatal conditions (spec/60_exceptions.md, R221 to R226): what a Step does where it is the
next event, by which cause a running machine records which fatal condition, and the parts of a Step in their order. -/

namespace Sys2Proof.Machine

/-! The Step event in the schedule -/

section
variable {s t : State}

theorem exec_pending {i : Instr} (h : exec i s = .next t) : t.pending = s.pending := by
  obtain ⟨-, r, -, rfl⟩ | hc := exec_cases h
  · rfl
  · cases hc <;> rfl

/-- A Step event does not touch the schedule. -/
theorem stepEvent_pending (h : stepEvent s = .next t) : t.pending = s.pending := by
  obtain ⟨-, rfl⟩ | ⟨-, -, ⟨-, h⟩ | ⟨-, -, h⟩ | ⟨-, i, -, h⟩⟩ := stepEvent_cases h
  · rfl
  · cases h; rfl
  · cases h; rfl
  · exact exec_pending (s := s.endBoot) h

/-- Where the next event is a Step, a step is the Step event with the schedule's first entry, if it has one, taken off. -/
theorem step_of_stepIsNext (hn : s.StepIsNext) : step s = delivered s.pending.tail (stepEvent s) := by
  obtain hp | ⟨rnd, es, hp⟩ := hn
  · rw [step_of_nil hp, hp]
    cases hr : stepEvent s with
    | next t =>
      have ht : t.pending = [] := (stepEvent_pending hr).trans hp
      cases t; cases ht; rfl
    | fault | refused => rfl
  · rw [step_of_cons hp, hp]; rfl

theorem exists_stepEvent_of_step (hn : s.StepIsNext) (h : step s = .next t) :
    ∃ u, stepEvent s = .next u ∧ t = u.withPending s.pending.tail := by
  rw [step_of_stepIsNext hn] at h
  cases hu : stepEvent s <;> rw [hu] at h <;> cases h
  exact ⟨_, rfl, rfl⟩

end

/-! The four fatal conditions (R222, R226) -/

/-- The record that a Step of a running machine makes, by its cause, in the order in which a Step meets them (R221, R222):
the fetch check, the decode, the instruction's own checks. -/
inductive FailsWith (s : State) : HaltRecord → Prop where
  | fetch (hf : fetchable s.pc = false) : FailsWith s ⟨.outOfRangeAccess, 0x0000, s.pc, s.pc.setWidth 17⟩
  | decode (hf : fetchable s.pc = true) (hd : decodeWord s.fetchWord = .error (.illegal s.fetchWord)) :
      FailsWith s ⟨.decodeError, s.fetchWord, s.pc, 0⟩
  | call {nnn} (hf : fetchable s.pc = true) (hd : decodeWord s.fetchWord = .ok (.call nnn)) (hsp : s.sp = 16) :
      FailsWith s ⟨.stackOverflow, s.fetchWord, s.pc, 0⟩
  | ret (hf : fetchable s.pc = true) (hd : decodeWord s.fetchWord = .ok .ret) (hsp : s.sp = 0) :
      FailsWith s ⟨.stackUnderflow, s.fetchWord, s.pc, 0⟩
  | access {i ea} (hf : fetchable s.pc = true) (hd : decodeWord s.fetchWord = .ok i) (hc : OutOfRangeCause i s ea) :
      FailsWith s ⟨.outOfRangeAccess, s.fetchWord, s.pc, BitVec.ofNat 17 ea⟩

section
variable {s t : State} {r : HaltRecord}

/-- An instruction with an address out of range records the first such address. -/
theorem exec_of_outOfRangeCause {i : Instr} {ea : Nat} (h : OutOfRangeCause i s ea) :
    exec i s = raiseFatal .outOfRangeAccess (encode i) ea s := by
  cases i with
  | drw x y n => obtain ⟨hr, rfl⟩ := h; exact execDrw_of_not_readsInRange x y hr
  | ldVxMem x => obtain ⟨hr, rfl⟩ := h; exact execLdVxMem_of_not_readsInRange x hr
  | ldBVx x => obtain ⟨hr, rfl⟩ := h; exact storeAtI_error _ _ s (List.cons_ne_nil _ _) hr
  | ldMemVx x =>
    obtain ⟨hr, rfl⟩ := h
    have hl := s.length_regsThrough x
    exact storeAtI_error _ _ s (List.ne_nil_of_length_eq_add_one hl) (hl ▸ hr)
  | _ => exact h.elim

/-- The first bad address is I or the first one above memory, so it fits in 16 bits. -/
theorem OutOfRangeCause.le {i : Instr} {ea : Nat} (h : OutOfRangeCause i s ea) : ea ≤ 65550 := by
  have hi := s.i.isLt
  cases i with
  | drw | ldVxMem => obtain ⟨-, rfl⟩ := h; unfold firstBadRead; omega
  | ldBVx | ldMemVx => obtain ⟨-, rfl⟩ := h; unfold firstBadWrite; split <;> omega
  | _ => exact h.elim

/-- Each cause makes its record, and nothing else. -/
theorem FailsWith.stepEvent_eq (hh : s.halt = none) (hm : s.mode = .running) (h : FailsWith s r) :
    stepEvent s = .next { s with boot := .booted, halt := some r } := by
  cases h with
  | fetch hf =>
    rw [stepEvent_of_bad_pc hh hm hf, raiseFatal_eq, BitVec.ofNat_toNat]
    rfl
  | decode hf hd => rw [stepEvent_of_illegal hh hm hf hd, raiseFatal_eq]; rfl
  | call hf hd hsp =>
    rw [stepEvent_of_ok hh hm hf hd, exec_call_of_full _ (s := s.endBoot) hsp, encode_of_decodeWord_ok hd,
      raiseFatal_eq]
    rfl
  | ret hf hd hsp =>
    rw [stepEvent_of_ok hh hm hf hd, exec_ret_of_empty (s := s.endBoot) hsp, encode_of_decodeWord_ok hd,
      raiseFatal_eq]
    rfl
  | access hf hd hc =>
    rw [stepEvent_of_ok hh hm hf hd, exec_of_outOfRangeCause (s := s.endBoot) hc, encode_of_decodeWord_ok hd,
      raiseFatal_eq]
    rfl

/-- The same as a step: the schedule loses the Step, if one was scheduled. -/
theorem FailsWith.step_eq (hh : s.halt = none) (hm : s.mode = .running) (hn : s.StepIsNext) (h : FailsWith s r) :
    step s = .next { s with boot := .booted, halt := some r, pending := s.pending.tail } := by
  rw [step_of_stepIsNext hn, h.stepEvent_eq hh hm]; rfl

/-- A Step of a machine that is not halted leaves it so, or one of the causes holds. -/
theorem stepEvent_halt_cases (hh : s.halt = none) (h : stepEvent s = .next t) :
    t.halt = none ∨ ∃ r, FailsWith s r := by
  obtain ⟨-, rfl⟩ | ⟨-, -, ⟨hf, -⟩ | ⟨hf, hd, -⟩ | ⟨hf, i, hd, h⟩⟩ := stepEvent_cases h
  · exact .inl hh
  · exact .inr ⟨_, .fetch hf⟩
  · exact .inr ⟨_, .decode hf hd⟩
  · refine (exec_halt_cases h).imp (·.trans hh) fun ⟨_, ea, _, hcause⟩ => ?_
    obtain ⟨-, -, hsp, nnn, rfl⟩ | ⟨-, -, hsp, rfl⟩ | ⟨-, hc⟩ := hcause
    · exact ⟨_, .call hf hd hsp⟩
    · exact ⟨_, .ret hf hd hsp⟩
    · exact ⟨_, .access hf hd hc⟩

/-- A Step of a running machine leaves a record exactly where a cause holds, and then the cause's (R222). -/
theorem step_halt_iff (hh : s.halt = none) (hm : s.mode = .running) (hn : s.StepIsNext) (h : step s = .next t) :
    t.halt = some r ↔ FailsWith s r := by
  have hrec {r' : HaltRecord} (hr : FailsWith s r') : t.halt = some r' := by
    cases (hr.step_eq hh hm hn).symm.trans h; rfl
  refine ⟨fun ht => ?_, hrec⟩
  obtain ⟨u, hu, rfl⟩ := exists_stepEvent_of_step hn h
  obtain hu | ⟨r', hr⟩ := stepEvent_halt_cases hh hu
  · cases hu.symm.trans ht
  · cases (hrec hr).symm.trans ht; exact hr

end

/-- Settles O9: a halted or blocked machine would keep HALT, so the machine is running, and the cause of the record
determines the whole next state. -/
theorem fatalConditionsArePrecise : Obligations.FatalConditionsArePrecise := by
  unfold Obligations.FatalConditionsArePrecise
  intro s t hn h hne
  obtain ⟨u, hu, ht⟩ := exists_stepEvent_of_step hn h
  obtain ⟨-, rfl⟩ | ⟨hh, hm, -⟩ := stepEvent_cases hu
  · rw [ht] at hne; exact (hne rfl).elim
  obtain ⟨r, hr⟩ := Option.ne_none_iff_exists'.mp (hh ▸ hne)
  have hfail : FailsWith s r := (step_halt_iff hh hm hn h).mp hr
  cases (hfail.step_eq hh hm hn).symm.trans h
  cases hfail <;> exact ⟨_, _, _, rfl, hm, fun _ => rfl⟩

/-- Settles O10: the causes of a record, one by one. -/
theorem eachFatalConditionHasItsCause : Obligations.EachFatalConditionHasItsCause := by
  unfold Obligations.EachFatalConditionHasItsCause
  refine ⟨⟨rfl, rfl, rfl, rfl⟩, fun s t r hh hm hn h => (step_halt_iff hh hm hn h).trans ⟨fun hr => ?_, ?_⟩⟩
  · cases hr with
    | fetch hf => exact .inl ⟨hf, rfl⟩
    | decode hf hd => exact .inr (.inl ⟨hf, hd, rfl⟩)
    | call hf hd hsp => exact .inr (.inr ⟨hf, _, hd, .inl ⟨_, rfl, hsp, rfl⟩⟩)
    | ret hf hd hsp => exact .inr (.inr ⟨hf, _, hd, .inr (.inl ⟨rfl, hsp, rfl⟩)⟩)
    | access hf hd hc => exact .inr (.inr ⟨hf, _, hd, .inr (.inr ⟨_, hc, hc.le, rfl⟩)⟩)
  · rintro (⟨hf, rfl⟩ | ⟨hf, hd, rfl⟩ | ⟨hf, i, hd, ⟨nnn, rfl, hsp, rfl⟩ | ⟨rfl, hsp, rfl⟩ | ⟨ea, hc, -, rfl⟩⟩)
    · exact .fetch hf
    · exact .decode hf hd
    · exact .call hf hd hsp
    · exact .ret hf hd hsp
    · exact .access hf hd hc

/-! The sequence of a Step (R221) -/

section
variable {s : State}

/-- A machine is halted or blocked, and ignores a Step, or it is running. -/
theorem State.idle_or_running (s : State) :
    (s.halt ≠ none ∨ s.mode = .blockedOnKey) ∨ (s.halt = none ∧ s.mode = .running) := by
  cases s.halt <;> cases s.mode <;> simp

theorem runInstr_withPending (es : List Event) (hi : ∀ x kk, decodeWord s.fetchWord ≠ .ok (.rnd x kk)) :
    runInstr (s.withPending es) = delivered es (runInstr s) := by
  unfold runInstr
  rw [State.decode_fetchBytes, State.decode_fetchBytes, show (s.withPending es).fetchWord = s.fetchWord from rfl,
    show (s.withPending es).pc = s.pc from rfl]
  split
  · cases hd : decodeWord s.fetchWord with
    | ok i => exact exec_withPending s es fun x kk he => hi x kk (he ▸ hd)
    | error r => rfl
  · rfl

/-- A Step carries the schedule along unread, unless it runs an RND. -/
theorem stepEvent_withPending (es : List Event) (hi : ∀ x kk, decodeWord s.fetchWord ≠ .ok (.rnd x kk)) :
    stepEvent (s.withPending es) = delivered es (stepEvent s) := by
  obtain hidle | ⟨hh, hm⟩ := s.idle_or_running
  · rw [stepEvent_of_idle hidle, stepEvent_of_idle (s := s.withPending es) hidle]; rfl
  · rw [stepEvent_of_running hh hm, stepEvent_of_running (s := s.withPending es) hh hm]
    exact runInstr_withPending (s := s.endBoot) es hi

end

/-- Settles O6: the bytes at PC decode as the word there, and the Step event runs the instruction. -/
theorem stepRunsTheDecodedInstruction : Obligations.StepRunsTheDecodedInstruction := by
  unfold Obligations.StepRunsTheDecodedInstruction
  intro s i rest hh hm hf hd
  have hw : decodeWord s.fetchWord = .ok i := by
    rw [State.decode_fetchBytes] at hd
    cases he : decodeWord s.fetchWord <;> rw [he] at hd <;> cases hd
    rfl
  have hev : stepEvent s = exec i s.endBoot := stepEvent_of_ok hh hm hf hw
  exact ⟨fun hp => (step_of_nil hp).trans hev, fun rnd es hp => (step_of_cons hp).trans (congrArg (delivered es) hev)⟩

/-- Settles O7: the parts of a Step in order; the random byte stands in the schedule, which a Step without an RND does not
read. -/
theorem stepFollowsTheSequence : Obligations.StepFollowsTheSequence := by
  unfold Obligations.StepFollowsTheSequence
  refine ⟨fun s hp => ?_, fun s rnd es hp hi => ?_⟩
  · rw [step_of_nil hp]
    refine ⟨fun hh => stepEvent_of_idle (.inl hh), fun _ hm => stepEvent_of_idle (.inr hm), fun hh hm =>
      ⟨fun hbad => ?_, fun heven hlo hhi => ⟨s.fetchWord, s.toNat_fetchWord, fun i hd => ?_, fun r hd => ?_⟩⟩⟩
    · exact (FailsWith.fetch ((fetchable_eq_false_iff _).mpr hbad)).stepEvent_eq hh hm
    · exact stepEvent_of_ok hh hm ((fetchable_iff _).mpr ⟨heven, hlo, hhi⟩) hd
    · exact stepEvent_of_illegal hh hm ((fetchable_iff _).mpr ⟨heven, hlo, hhi⟩) hd
  · calc step s = delivered es (stepEvent s) := step_of_cons hp
      _ = delivered es (stepEvent (s.withPending [])) := by rw [stepEvent_withPending [] hi, delivered_delivered]
      _ = delivered es (step (s.withPending [])) := by rw [step_of_nil (s := s.withPending []) rfl]

end Sys2Proof.Machine

/-! SUPPORT. The host events (spec/60_exceptions.md, R228 to R241; spec/70_reset_and_hazards.md, R260): what each of them
answers in one step, that only Reset clears HALT, that only a misplaced Load is refused, and the order of the strobes of a
clock cycle. -/

namespace Sys2Proof.Machine

/-! What a step answers that delivers an event -/

section
variable {s : State} {es : List Event}

theorem step_of_hostEvent {e : Event} {r : Result} (hp : s.pending = e :: es) (he : hostEvent e s = r) :
    step s = delivered es r :=
  he ▸ step_of_cons hp

/-- One step that delivers a Reset (R260). -/
theorem step_reset (hp : s.pending = .reset :: es) :
    step s = .next { State.reset with
      glyphRom := s.glyphRom, draws := s.draws, resets := s.resets + 1, pending := es } :=
  step_of_cons hp

/-- One step that delivers a SetKey to a machine that does not wait for a key (R238). -/
theorem step_setKey_latched {k : Option Key} (hp : s.pending = .setKey k :: es)
    (h : k = none ∨ s.mode = .running ∨ s.halt ≠ none) :
    step s = .next { s with key := k, boot := .booted, pending := es } := by
  have hev : setKeyEvent k s = .next { s with key := k }.endBoot := by
    obtain ⟨key, rfl, hm, hh, -⟩ | ⟨-, hev⟩ := setKeyEvent_cases k s
    · simp [hm, hh] at h
    · exact hev
  exact step_of_hostEvent hp hev

/-- One step that delivers a key press to a machine that waits for one (R211). -/
theorem step_setKey_wakes {key : Key} (hp : s.pending = .setKey (some key) :: es) (hm : s.mode = .blockedOnKey)
    (hh : s.halt = none) :
    step s = .next { s with
      v := s.v.set s.kreg (zextKey key), pc := s.pc + 2, key := some key, mode := .running, boot := .booted,
      pending := es } := by
  have hev : setKeyEvent (some key) s = .next ({ s with key := some key }.endBoot.wake key) := by
    simp only [setKeyEvent, hm, hh]
  exact step_of_hostEvent hp hev

section
variable {image : List Byte}

/-- One step that delivers a Load in its protocol (R237). -/
theorem step_load (hp : s.pending = .load image :: es) (hb : s.boot = .awaitingLoad) (hl : image.length ≤ 3584) :
    step s = .next ((s.writeBytes progBase image).endBoot.withPending es) := by
  have hev : loadEvent image s = .next (s.writeBytes progBase image).endBoot := by
    simp only [loadEvent, hb, imageWellFormed, hl, decide_true, if_true]
  exact step_of_hostEvent hp hev

theorem step_load_tooLong (hp : s.pending = .load image :: es) (hb : s.boot = .awaitingLoad)
    (hl : 3584 < image.length) : step s = .refused .imageTooLong := by
  have hev : loadEvent image s = .refused .imageTooLong := by
    simp only [loadEvent, hb, imageWellFormed, decide_eq_true_eq, if_neg (Nat.not_le_of_lt hl)]
  exact step_of_hostEvent hp hev

theorem step_load_outsideBoot (hp : s.pending = .load image :: es) (hb : s.boot ≠ .awaitingLoad) :
    step s = .refused .loadOutsideBoot := by
  have hev : loadEvent image s = .refused .loadOutsideBoot := by
    unfold loadEvent
    cases h : s.boot with
    | awaitingLoad => exact (hb h).elim
    | loading | booted => rfl
  exact step_of_hostEvent hp hev

end

section
variable {index : BitVec 12} {data : Byte}

theorem step_loadPort_tooLong (hp : s.pending = .loadPort index data :: es) (hb : s.boot ≠ .booted)
    (hi : 3583 < index.toNat) : step s = .refused .imageTooLong := by
  have hev : loadPortEvent index data s = .refused .imageTooLong := by
    unfold loadPortEvent
    cases h : s.boot with
    | booted => exact (hb h).elim
    | awaitingLoad | loading => exact if_neg (Nat.not_le_of_lt hi)
  exact step_of_hostEvent hp hev

theorem step_loadPort_outsideBoot (hp : s.pending = .loadPort index data :: es) (hb : s.boot = .booted) :
    step s = .refused .loadOutsideBoot := by
  have hev : loadPortEvent index data s = .refused .loadOutsideBoot := by
    simp only [loadPortEvent, hb]
  exact step_of_hostEvent hp hev

end

end

/-! A halted machine (R228, R229) -/

section
variable {s t : State}

theorem hostEvent_keeps_halt {e : Event} (hh : s.halt ≠ none) (he : e ≠ .reset) (h : hostEvent e s = .next t) :
    t.halt = s.halt := by
  cases e with
  | reset => exact (he rfl).elim
  | load image =>
    obtain ⟨-, -, rfl⟩ := loadEvent_cases h
    rw [State.writeBytes_frame]; rfl
  | loadPort index data =>
    obtain ⟨-, -, rfl⟩ := loadPortEvent_cases h
    rfl
  | step rnd => cases (stepEvent_of_idle (.inl hh)).symm.trans h; rfl
  | tick => cases h; rfl
  | setKey k =>
    obtain ⟨-, -, -, hn, -⟩ | ⟨-, hk⟩ := setKeyEvent_cases k s
    · exact (hh hn).elim
    · cases hk.symm.trans h; rfl

/-- Every event but Reset leaves the record of a halted machine as it was written. -/
theorem step_keeps_halt (hh : s.halt ≠ none) (hr : ∀ es, s.pending ≠ .reset :: es) (h : step s = .next t) :
    t.halt = s.halt := by
  obtain ⟨-, h⟩ | ⟨e, es, u, hp, hu, rfl⟩ := step_cases h
  · cases (stepEvent_of_idle (.inl hh)).symm.trans h; rfl
  · exact hostEvent_keeps_halt (t := u) hh (fun he => hr es (he ▸ hp)) hu

end

/-- Settles O12: Reset leaves no record, and every other event leaves the record there is. -/
theorem onlyResetClearsHalt : Obligations.OnlyResetClearsHalt := by
  unfold Obligations.OnlyResetClearsHalt
  intro s t r hh h
  by_cases hr : ∃ es, s.pending = .reset :: es
  · obtain ⟨es, hp⟩ := hr
    cases (step_reset hp).symm.trans h
    exact .inr ⟨rfl, es, hp⟩
  · have hr' : ∀ es, s.pending ≠ .reset :: es := not_exists.mp hr
    have hne : s.halt ≠ none := by rw [hh]; exact Option.some_ne_none r
    exact .inl ⟨(step_keeps_halt hne hr' h).trans hh, hr'⟩

/-- Settles O11: a halted machine ignores a Step, a Tick does not look at HALT, a SetKey only latches, and the invariant
says that the machine is Running. -/
theorem haltedMachineOnlyCountsAndLatches : Obligations.HaltedMachineOnlyCountsAndLatches := by
  unfold Obligations.HaltedMachineOnlyCountsAndLatches
  intro s r hh
  have hne : s.halt ≠ none := by rw [hh]; exact Option.some_ne_none r
  refine ⟨fun hp => ?_, fun rnd es hp => step_scheduledStep_of_idle hp (.inl hne), fun es hp => ?_,
    fun k es hp => step_setKey_latched hp (.inr (.inr hne)), fun t h hr => (step_keeps_halt hne hr h).trans hh,
    fun hinv => hinv.halted_running hne⟩
  · rw [step_of_nil hp, stepEvent_of_idle (.inl hne)]
  · exact ⟨_, step_tick hp, rfl, toNat_countDown s.dt, toNat_countDown s.st⟩

/-! What is refused (R237, R241) -/

/-- Every instruction answers a next state, whether it completes or records a fatal condition. -/
theorem exists_exec_eq_next (i : Instr) (s : State) : ∃ t, exec i s = .next t := by
  obtain ⟨x, rfl⟩ | ⟨x, rfl⟩ | ⟨r, w, ea, h, -⟩ | ⟨t, h, -⟩ := exec_runsAlike_or s s.st s.mode s.kreg s.halt i
  · exact ⟨_, rfl⟩
  · exact ⟨_, rfl⟩
  · exact ⟨_, h⟩
  · exact ⟨t, h⟩

theorem exists_stepEvent_eq_next (s : State) : ∃ t, stepEvent s = .next t := by
  obtain hidle | ⟨hh, hm⟩ := s.idle_or_running
  · exact ⟨s, stepEvent_of_idle hidle⟩
  cases hf : fetchable s.pc with
  | false => exact ⟨_, stepEvent_of_bad_pc hh hm hf⟩
  | true =>
    cases hd : decodeWord s.fetchWord with
    | error r => exact ⟨_, stepEvent_of_illegal hh hm hf hd⟩
    | ok i =>
      rw [stepEvent_of_ok hh hm hf hd]
      exact exists_exec_eq_next i s.endBoot

/-- Settles O15: event by event; a Load or a load-port write is answered in its protocol and refused outside it. -/
theorem onlyAMisplacedLoadIsRefused : Obligations.OnlyAMisplacedLoadIsRefused := by
  unfold Obligations.OnlyAMisplacedLoadIsRefused
  intro s
  cases hp : s.pending with
  | nil => exact .inl ((step_of_nil hp).symm ▸ exists_stepEvent_eq_next s)
  | cons e es =>
    cases e with
    | reset => exact .inl ⟨_, step_reset hp⟩
    | tick => exact .inl ⟨_, step_tick hp⟩
    | step rnd =>
      obtain ⟨t, ht⟩ := exists_stepEvent_eq_next s
      exact .inl ⟨_, step_of_hostEvent hp ht⟩
    | setKey k =>
      obtain ⟨key, rfl, hm, hh, -⟩ | ⟨hk, -⟩ := setKeyEvent_cases k s
      · exact .inl ⟨_, step_setKey_wakes hp hm hh⟩
      · exact .inl ⟨_, step_setKey_latched hp hk⟩
    | load image =>
      by_cases hb : s.boot = .awaitingLoad
      · obtain hl | hl := Nat.lt_or_ge 3584 image.length
        · exact .inr (.inl ⟨image, es, rfl, .inr hl, _, step_load_tooLong hp hb hl⟩)
        · exact .inl ⟨_, step_load hp hb hl⟩
      · exact .inr (.inl ⟨image, es, rfl, .inl hb, _, step_load_outsideBoot hp hb⟩)
    | loadPort index data =>
      by_cases hb : s.boot = .booted
      · exact .inr (.inr ⟨index, data, es, rfl, .inl hb, _, step_loadPort_outsideBoot hp hb⟩)
      · obtain hi | hi := Nat.lt_or_ge 3583 index.toNat
        · exact .inr (.inr ⟨index, data, es, rfl, .inr hi, _, step_loadPort_tooLong hp hb hi⟩)
        · exact .inl ⟨_, step_loadPort hp hb hi⟩

/-! Tick, SetKey, Load and Reset, one by one -/

/-- Settles O16: both timers lose one, floored at 0. -/
theorem tickCountsBothTimersDown : Obligations.TickCountsBothTimersDown := by
  unfold Obligations.TickCountsBothTimersDown
  intro s es hp
  have hfloor (b : Byte) : (countDown b).toNat = if 0 < b.toNat then b.toNat - 1 else 0 := by
    rw [toNat_countDown]; split <;> omega
  exact ⟨_, step_tick hp, rfl, hfloor s.dt, hfloor s.st, fun _ => rfl⟩

/-- Settles O17: waking writes one register, PC and MODE; in every other case the key is latched alone. -/
theorem setKeyLatchesAndEndsTheWait : Obligations.SetKeyLatchesAndEndsTheWait := by
  unfold Obligations.SetKeyLatchesAndEndsTheWait
  intro s k es hp
  refine ⟨fun key hk hm hh => ?_, step_setKey_latched hp⟩
  subst hk
  refine ⟨_, step_setKey_wakes hp hm hh, rfl, ?_, fun z hz => s.reg_setReg_of_ne s.kreg z (zextKey key) hz,
    fun _ => rfl⟩
  exact (congrArg BitVec.toNat (s.reg_setReg_self s.kreg (zextKey key))).trans
    (BitVec.toNat_setWidth_of_le (by decide))

/-- Settles O18: the image is a block of writes from 0x200 on, made only while a Load is awaited. -/
theorem loadWritesTheImageOnce : Obligations.LoadWritesTheImageOnce := by
  unfold Obligations.LoadWritesTheImageOnce
  intro s image es hp
  refine ⟨fun hb hl => ⟨_, step_load hp hb hl, ?_, fun j hj => ?_, fun a ha => ?_⟩, step_load_tooLong hp,
    step_load_outsideBoot hp⟩
  · rw [State.writeBytes_frame]; rfl
  · exact State.readByte_writeBytes_of_getElem? (s := s) (List.getElem?_eq_getElem hj)
  · exact State.readByte_writeBytes_outside (s := s) ha

/-- Settles O19: the elements are those of the state after Reset, and memory, which lists nothing, reads as its unwritten
bytes under this machine's GLYPH_ROM. -/
theorem resetEventRestoresEveryElement : Obligations.ResetEventRestoresEveryElement := by
  unfold Obligations.ResetEventRestoresEveryElement
  intro s es hp
  refine ⟨_, step_reset hp, State.reg_reset, rfl, rfl, rfl, rfl, rfl, rfl, rfl, rfl, rfl, pixel_clearFrame, rfl,
    fun a => ?_, fun a ha _ => ?_, rfl, rfl, rfl, rfl⟩
  · exact (State.readByte_of_mem_nil rfl a).trans (unlistedByte_glyph s.glyphRom _ a)
  · exact (State.readByte_of_mem_nil rfl a).trans (unlistedByte_ram s.glyphRom _ ha)

/-! The strobes of a clock cycle (R231, R241) -/

/-- The order of the events of one cycle: the load port's write, SetKey, Step, Tick (R231, assumption 8). -/
def ComesBefore (p : PortsIn) (e f : Event) : Prop :=
  (∃ k, e = .setKey k ∧ f = .step p.rnd) ∨ (∃ k, e = .setKey k ∧ f = .tick) ∨ (e = .step p.rnd ∧ f = .tick) ∨
    (e = .loadPort p.ldIndex p.ldData ∧ ∀ index data, f ≠ .loadPort index data)

/-- A strobe gives its event, or none. -/
theorem mem_strobe {b : Bool} {e f : Event} : f ∈ (if b then [e] else []) ↔ b = true ∧ f = e := by
  cases b <;> simp

theorem pairwise_strobe (R : Event → Event → Prop) (b : Bool) (e : Event) : (if b then [e] else []).Pairwise R := by
  cases b <;> simp

section
variable {p : PortsIn}

theorem PortsIn.mem_events (h : p.rst = false) {e : Event} :
    e ∈ p.events ↔
      (p.ldValid = true ∧ e = .loadPort p.ldIndex p.ldData) ∨
      (p.keyValid = true ∧ e = .setKey (if p.keyDown then some p.keyCode else none)) ∨
      (p.step = true ∧ e = .step p.rnd) ∨ (p.tick = true ∧ e = .tick) := by
  simp only [PortsIn.events, h, Bool.false_eq_true, if_false, List.mem_append, mem_strobe, or_assoc]

theorem comesBefore_of_loadPort {f : Event} (hf : ∀ index data, f ≠ .loadPort index data) :
    ComesBefore p (.loadPort p.ldIndex p.ldData) f := .inr (.inr (.inr ⟨rfl, hf⟩))

/-- The strobes of a cycle act in their order (R231). -/
theorem PortsIn.pairwise_events (h : p.rst = false) : p.events.Pairwise (ComesBefore p) := by
  simp only [PortsIn.events, h, Bool.false_eq_true, if_false, List.pairwise_append, pairwise_strobe, true_and,
    List.mem_append, mem_strobe]
  refine ⟨⟨?_, ?_⟩, ?_⟩
  · rintro _ ⟨-, rfl⟩ _ ⟨-, rfl⟩
    exact comesBefore_of_loadPort nofun
  · rintro _ (⟨-, rfl⟩ | ⟨-, rfl⟩) _ ⟨-, rfl⟩
    · exact comesBefore_of_loadPort nofun
    · exact .inl ⟨_, rfl, rfl⟩
  · rintro _ ((⟨-, rfl⟩ | ⟨-, rfl⟩) | ⟨-, rfl⟩) _ ⟨-, rfl⟩
    · exact comesBefore_of_loadPort nofun
    · exact .inr (.inl ⟨_, rfl, rfl⟩)
    · exact .inr (.inr (.inl ⟨rfl, rfl⟩))

end

/-- Settles O21: each strobe gives its event, in the order of the cycle; and a write of the load port is a block of one
byte, made only until another event. -/
theorem strobesOfACycleAreOrdered : Obligations.StrobesOfACycleAreOrdered := by
  unfold Obligations.StrobesOfACycleAreOrdered
  refine ⟨fun s p => ⟨rfl, fun h => ?_, fun h e f hef => ?_, fun h => ?_⟩, fun s index data es hp =>
    ⟨fun hb hi => ⟨_, step_loadPort hp hb hi, rfl, ?_, fun a ha => ?_⟩, step_loadPort_tooLong hp,
      step_loadPort_outsideBoot hp⟩⟩
  · rw [PortsIn.events, if_pos h]
  · exact List.pairwise_iff_forall_sublist.mp (PortsIn.pairwise_events h) hef
  · simp [PortsIn.mem_events h]
  · exact (s.readByte_writeByte _ data _).trans (if_pos rfl)
  · exact (s.readByte_writeByte _ data a).trans (if_neg ha)

end Sys2Proof.Machine
